-- ==== Sys2Proof/Word.lean ====
section
/-! DEFINITION. Word.lean: the widths the spec gives its values (30_encoding.md R80, R81; 20_memory.md R52). -/

namespace Sys2Proof

/-- Eight bits: a register of the block, a byte of memory, a byte of a host stream (10_state.md R26). -/
abbrev Byte := BitVec 8

/-- Sixteen bits: the value field of a transaction (30_encoding.md R80). -/
abbrev Half := BitVec 16

/-- The address field of a transaction, `TXN_ADDR_BITS` = 32 bits (00_scope.md R5). -/
abbrev BusAddr := BitVec 32

/-- A forwarded memory address, `MEM_ADDR_BITS` = 20 bits (00_scope.md R5, 20_memory.md R60). -/
abbrev MemAddr := BitVec 20

/-- The packed word of 30_encoding.md R81 (52 bits) in whole bytes.
Bits 55:52 pad it, and like bit 51 they are 0 in a word that spells a transaction (log 9). -/
abbrev Packed := BitVec 56

end Sys2Proof
end

