-- ==== Sys2Proof/Config.lean ====
section
/-! DEFINITION. Config.lean: the parameters of 00_scope.md R5, the constants the source fixes, and the free values. -/

namespace Sys2Proof

/-- The two image sizes of 00_scope.md R5 (`ROM_SIZE`) and 70_reset_and_hazards.md R210. -/
inductive RomSize where
  | kib2
  | kib4
deriving DecidableEq, Repr

/-- Which memory stands behind the decoder: the parameter `DefaultMem` of 00_scope.md R5, which is OPEN (20_memory.md R53). -/
inductive MemoryKind where
  /-- The instantiation 20_memory.md R53 suggests: flat, little-endian, every byte readable and writable (log 7). -/
  | flat
  /-- Any memory at all: it is given every call, and its answers are its own (log 27). -/
  | external
deriving DecidableEq, Repr

/-- The parameters a machine is built with (00_scope.md R5).
They hold for a whole run (10_state.md R20, 30_encoding.md R90), and State carries them so that every statement holds for
every port map (log 2). -/
structure Params where
  /-- `PORT_UART_DATA`, read and write. -/
  uartData : BusAddr
  /-- `PORT_UART_STATUS`, read. -/
  uartStatus : BusAddr
  /-- `PORT_UART_CTRL`, write. -/
  uartCtrl : BusAddr
  /-- `PORT_UART_BAUD`, write. -/
  uartBaud : BusAddr
  /-- `PORT_PIC_M_CMD`, write. -/
  picMCmd : BusAddr
  /-- `PORT_PIC_M_DATA`, write. -/
  picMData : BusAddr
  /-- `PORT_PIC_S_CMD`, write. -/
  picSCmd : BusAddr
  /-- `PORT_PIC_S_DATA`, write. -/
  picSData : BusAddr
  /-- `PORT_CTC_DATA`, write. -/
  ctcData : BusAddr
  /-- `PORT_CTC_CTRL`, write. -/
  ctcCtrl : BusAddr
  /-- `PORT_SENSE`, read. -/
  sense : BusAddr
  /-- `UART_STATUS_UPPER`, bits 7 to 2 of the status byte (10_state.md R27, log 13). -/
  statusUpper : BitVec 6
  /-- `DefaultMem` (20_memory.md R53, logs 7 and 27). -/
  memory : MemoryKind
  /-- `STOP_ACCESS_SERVICED` (40_dispatch.md R110, log 14). -/
  stopAccessServiced : Bool
deriving DecidableEq, Repr

/-- The default port map of 00_scope.md R5. PRESUMED: the numbers are the spec's own general knowledge (log 2).
DESIGN CHOICE: `uartBaud` has no default in the spec, and 0xFE is this model's (log 3). DESIGN CHOICE: of the OPEN
`DefaultMem` it takes the instantiation the spec suggests (log 7). -/
def Params.default : Params where
  uartData := 0xF6
  uartStatus := 0xF7
  uartCtrl := 0xF7
  uartBaud := 0xFE
  picMCmd := 0xF0
  picMData := 0xF1
  picSCmd := 0xF2
  picSData := 0xF3
  ctcData := 0xF4
  ctcCtrl := 0xF5
  sense := 0xFF
  statusUpper := 0
  memory := .flat
  stopAccessServiced := true

/-- The three addresses claimed for reading (10_state.md R26). -/
def Params.readPorts (p : Params) : List BusAddr := [p.uartData, p.uartStatus, p.sense]

/-- The eight write-sink addresses (10_state.md R30), in the order 30_encoding.md R83 compares them. -/
def Params.sinkPorts (p : Params) : List BusAddr :=
  [p.uartCtrl, p.uartBaud, p.picMCmd, p.picMData, p.picSCmd, p.picSData, p.ctcData, p.ctcCtrl]

/-- The nine addresses claimed for writing (10_state.md R26). -/
def Params.writePorts (p : Params) : List BusAddr := p.uartData :: p.sinkPorts

/-- The constraints between OPEN parameters at the end of 00_scope.md R5: the read addresses are pairwise distinct, and the
UART data address is none of the sinks. The sinks need not differ from one another. -/
def Params.wf (p : Params) : Bool :=
  decide (p.uartData ≠ p.uartStatus) && decide (p.uartData ≠ p.sense) && decide (p.uartStatus ≠ p.sense) &&
    decide (p.uartData ∉ p.sinkPorts)

/-- `SENSE_VALUE` (44_sense_switch.md R170). -/
def Config.senseValue : Byte := 0x1E

/-- `FILL`, the byte of a read that finds nothing (30_encoding.md R85). -/
def Config.fill : Byte := 0xFF

/-- `TX_EOL`, the transmitted byte that becomes a host newline (41_uart.md R134). -/
def Config.txEol : Byte := 0x8A

/-- `HOST_NL`. PRESUMED (log 10): ASCII, the spec's decision D15. -/
def Config.hostNl : Byte := 0x0A

/-- `RX_LF`. PRESUMED (log 10): ASCII, the spec's decision D15. -/
def Config.rxLf : Byte := 0x0A

/-- `RX_CR`. PRESUMED (log 10): ASCII, the spec's decision D15. -/
def Config.rxCr : Byte := 0x0D

/-- `MEM_MASK` (30_encoding.md R91 (d)). -/
def Config.memMask : BusAddr := 0xFFFFF

/-- `TOP_OF_SPACE` (70_reset_and_hazards.md R211). -/
def Config.topOfSpace : Nat := 0x100000

/-- `ROM_SIZE` in bytes (70_reset_and_hazards.md R210). -/
def RomSize.bytes : RomSize → Nat
  | .kib2 => 2048
  | .kib4 => 4096

/-- `RESET_CS`. PRESUMED (log 21): the spec's decision D19. -/
def Config.resetCs : Half := 0xFFFF

/-- `RESET_IP`. PRESUMED (log 21): the spec's decision D19. -/
def Config.resetIp : Half := 0x0000

/-- What `HostPull()` answers (41_uart.md R130). -/
inductive HostAnswer where
  /-- One byte was waiting and has been taken from the stream. -/
  | byte (b : Byte)
  /-- Nothing is waiting now. -/
  | wouldBlock
  /-- The stream failed. -/
  | error
deriving DecidableEq, Repr, Inhabited

/-- The free value of `draw8()` (00_scope.md R8), the draw numbered `n` of a run.
It has no body: nothing in Lean can say what it is (log 6). -/
opaque Config.freeByte : Nat → Byte

/-- The host's free answer to the pull numbered `n` of a run, once the answers queued in State are used up
(41_uart.md R130: the answer is chosen by the host). It has no body (log 5). -/
opaque Config.hostAnswer : Nat → HostAnswer

end Sys2Proof
end

