-- ==== Sys2Proof/Syntax.lean ====
section
/-! DEFINITION. Syntax.lean: the transaction (30_encoding.md R80, R88), the sixteen operations (R86), and the other inputs
of the block (R89). -/

namespace Sys2Proof

/-- The address space of a transaction (20_memory.md R50). -/
inductive Space where
  | mem
  | io
deriving DecidableEq, Repr

/-- The direction of a transaction, seen from the CPU (30_encoding.md R80). -/
inductive Dir where
  | read
  | write
deriving DecidableEq, Repr

/-- The two access widths the block gives a meaning (20_memory.md R56). -/
inductive Width where
  | w8
  | w16
deriving DecidableEq, Repr

/-- The transaction tuple of 30_encoding.md R80. `width` is the access width in bits as the bus master presents it: it may
be one that the block refuses (20_memory.md R56). -/
structure Txn where
  space : Space
  dir : Dir
  width : Nat
  addr : BusAddr
  value : Half
deriving DecidableEq, Repr

/-! The eight bus mnemonics of 30_encoding.md R88. -/

/-- `LD8 addr` -/
def Txn.ld8 (a : BusAddr) : Txn := ⟨.mem, .read, 8, a, 0⟩
/-- `LD16 addr` -/
def Txn.ld16 (a : BusAddr) : Txn := ⟨.mem, .read, 16, a, 0⟩
/-- `ST8 addr, value` -/
def Txn.st8 (a : BusAddr) (v : Half) : Txn := ⟨.mem, .write, 8, a, v⟩
/-- `ST16 addr, value` -/
def Txn.st16 (a : BusAddr) (v : Half) : Txn := ⟨.mem, .write, 16, a, v⟩
/-- `IN8 addr` -/
def Txn.in8 (a : BusAddr) : Txn := ⟨.io, .read, 8, a, 0⟩
/-- `IN16 addr` -/
def Txn.in16 (a : BusAddr) : Txn := ⟨.io, .read, 16, a, 0⟩
/-- `OUT8 addr, value` -/
def Txn.out8 (a : BusAddr) (v : Half) : Txn := ⟨.io, .write, 8, a, v⟩
/-- `OUT16 addr, value` -/
def Txn.out16 (a : BusAddr) (v : Half) : Txn := ⟨.io, .write, 16, a, v⟩

/-- The sixteen operations, one per row of spec/opcode_table.json, with the operands their rules name.
A sink has no address operand: its address is a parameter. -/
inductive Instr where
  /-- `UART.RD.DATA` (41_uart.md R132) -/
  | uartRdData (w : Width)
  /-- `UART.RD.STATUS` (41_uart.md R133) -/
  | uartRdStatus (w : Width)
  /-- `SW.RD` (44_sense_switch.md R170) -/
  | swRd (w : Width)
  /-- `IO.RD.UNHANDLED` (40_dispatch.md R112) -/
  | ioRdUnhandled (a : BusAddr) (w : Width)
  /-- `UART.WR.DATA` (41_uart.md R134) -/
  | uartWrData (w : Width) (v : Half)
  /-- `UART.WR.CTRL` (41_uart.md R135) -/
  | uartWrCtrl (w : Width) (v : Half)
  /-- `UART.WR.BAUD` (41_uart.md R136) -/
  | uartWrBaud (w : Width) (v : Half)
  /-- `PIC.WR.M_CMD` (42_pic.md R150) -/
  | picWrMCmd (w : Width) (v : Half)
  /-- `PIC.WR.M_DATA` (42_pic.md R151) -/
  | picWrMData (w : Width) (v : Half)
  /-- `PIC.WR.S_CMD` (42_pic.md R152) -/
  | picWrSCmd (w : Width) (v : Half)
  /-- `PIC.WR.S_DATA` (42_pic.md R153) -/
  | picWrSData (w : Width) (v : Half)
  /-- `CTC.WR.DATA` (43_timer.md R160) -/
  | ctcWrData (w : Width) (v : Half)
  /-- `CTC.WR.CTRL` (43_timer.md R161) -/
  | ctcWrCtrl (w : Width) (v : Half)
  /-- `IO.WR.UNHANDLED` (40_dispatch.md R113) -/
  | ioWrUnhandled (a : BusAddr) (w : Width) (v : Half)
  /-- `MEM.RD` (40_dispatch.md R116) -/
  | memRd (a : BusAddr) (w : Width)
  /-- `MEM.WR` (40_dispatch.md R117) -/
  | memWr (a : BusAddr) (w : Width) (v : Half)
deriving DecidableEq, Repr

/-- The width of a read, and nothing for a write (30_encoding.md R82: a write returns nothing). -/
def Instr.readWidth : Instr → Option Width
  | .uartRdData w | .uartRdStatus w | .swRd w | .ioRdUnhandled _ w | .memRd _ w => some w
  | .uartWrData _ _ | .uartWrCtrl _ _ | .uartWrBaud _ _ | .picWrMCmd _ _ | .picWrMData _ _ | .picWrSCmd _ _
  | .picWrSData _ _ | .ctcWrData _ _ | .ctcWrCtrl _ _ | .ioWrUnhandled _ _ _ | .memWr _ _ _ => none

/-- The two operations that may pull a host byte (41_uart.md R131). -/
def Instr.isUartRead : Instr → Bool
  | .uartRdData _ | .uartRdStatus _ => true
  | .swRd _ | .ioRdUnhandled _ _ | .memRd _ _ | .uartWrData _ _ | .uartWrCtrl _ _ | .uartWrBaud _ _ | .picWrMCmd _ _
  | .picWrMData _ _ | .picWrSCmd _ _ | .picWrSData _ _ | .ctcWrData _ _ | .ctcWrCtrl _ _ | .ioWrUnhandled _ _ _
  | .memWr _ _ _ => false

/-- The eight write sinks (10_state.md R30). -/
def Instr.isSink : Instr → Bool
  | .uartWrCtrl _ _ | .uartWrBaud _ _ | .picWrMCmd _ _ | .picWrMData _ _ | .picWrSCmd _ _ | .picWrSData _ _
  | .ctcWrData _ _ | .ctcWrCtrl _ _ => true
  | .uartRdData _ | .uartRdStatus _ | .swRd _ | .ioRdUnhandled _ _ | .uartWrData _ _ | .ioWrUnhandled _ _ _
  | .memRd _ _ | .memWr _ _ _ => false

/-- The asynchronous events (60_exceptions.md R187 to R189). -/
inductive Event where
  | stopSignal
  | killSignal
  | runLoopReturn
deriving DecidableEq, Repr

/-- What reaches the block from outside, one item at a time (log 1). -/
inductive BusInput where
  /-- A transaction in the packed form of 30_encoding.md R81. -/
  | word (T : Packed)
  /-- A transaction as the tuple of 30_encoding.md R80. -/
  | txn (t : Txn)
  /-- The bus master has completed an instruction: it samples `halt_req` (60_exceptions.md R186, log 15). -/
  | boundary
  /-- An asynchronous event, between two transactions. -/
  | event (e : Event)
deriving DecidableEq, Repr

end Sys2Proof
end

