-- ==== Sys2Proof/WellFormed.lean ====
section
/-! DEFINITION. WellFormed.lean: which terms of `Instr` some transaction selects, under a given port map. -/

namespace Sys2Proof

/-- The value operand of a write: an 8-bit write has 0 in value[15:8] (30_encoding.md R80, R81). -/
def valueFits : Width → Half → Bool
  | .w8, v => v.extractLsb' 8 8 == 0
  | .w16, _ => true

/-- `a` is the address of the write operation whose port is compared after those of `before` (30_encoding.md R83: an earlier
comparison wins). -/
def reachedAfter (before : List BusAddr) (a : BusAddr) : Bool := !before.contains a

/-- The instruction is what `classify` can make of some transaction (30_encoding.md R83): its value fits its width, the
comparisons before its own do not take its port, and an unhandled address is claimed by no register in that direction. -/
def WellFormed (p : Params) : Instr → Bool
  | .uartRdData _ => true
  | .uartRdStatus _ => reachedAfter [p.uartData] p.uartStatus
  | .swRd _ => reachedAfter [p.uartData, p.uartStatus] p.sense
  | .ioRdUnhandled a _ => reachedAfter p.readPorts a
  | .uartWrData w v => valueFits w v
  | .uartWrCtrl w v => valueFits w v && reachedAfter (p.writePorts.take 1) p.uartCtrl
  | .uartWrBaud w v => valueFits w v && reachedAfter (p.writePorts.take 2) p.uartBaud
  | .picWrMCmd w v => valueFits w v && reachedAfter (p.writePorts.take 3) p.picMCmd
  | .picWrMData w v => valueFits w v && reachedAfter (p.writePorts.take 4) p.picMData
  | .picWrSCmd w v => valueFits w v && reachedAfter (p.writePorts.take 5) p.picSCmd
  | .picWrSData w v => valueFits w v && reachedAfter (p.writePorts.take 6) p.picSData
  | .ctcWrData w v => valueFits w v && reachedAfter (p.writePorts.take 7) p.ctcData
  | .ctcWrCtrl w v => valueFits w v && reachedAfter (p.writePorts.take 8) p.ctcCtrl
  | .ioWrUnhandled a w v => valueFits w v && reachedAfter p.writePorts a
  | .memRd _ _ => true
  | .memWr _ w v => valueFits w v

end Sys2Proof
end

