-- ==== Sys2Proof/Decode.lean ====
section
/-! DEFINITION. Decode.lean: from a packed word or a tuple to an operation (30_encoding.md R81, R83), and back. -/

namespace Sys2Proof

/-- Why a word or a tuple has no meaning (30_encoding.md R87 (b)). -/
inductive Reject where
  /-- The access width is neither 8 nor 16 (20_memory.md R56). -/
  | badWidth (bits : Nat)
  /-- Bit 51, or a padding bit above it, is 1 (30_encoding.md R81, log 9). -/
  | reservedBits (T : Packed)
deriving DecidableEq, Repr

/-- The `space` bit of 30_encoding.md R81. -/
def Space.ofBit (b : BitVec 1) : Space := if b = 1 then .io else .mem

/-- The `dir` bit of 30_encoding.md R81. -/
def Dir.ofBit (b : BitVec 1) : Dir := if b = 1 then .write else .read

/-- The `width` bit of 30_encoding.md R81, as a number of bits. -/
def widthBitsOf (b : BitVec 1) : Nat := if b = 1 then 16 else 8

/-- The tuple a packed word spells (30_encoding.md R81). -/
def unpack (T : Packed) : Except Reject Txn :=
  if T.extractLsb' 51 5 = 0 then
    .ok
      { space := Space.ofBit (T.extractLsb' 50 1)
        dir := Dir.ofBit (T.extractLsb' 49 1)
        width := widthBitsOf (T.extractLsb' 48 1)
        addr := T.extractLsb' 16 32
        value := T.extractLsb' 0 16 }
  else .error (.reservedBits T)

/-- The widths with a meaning (20_memory.md R56). -/
def widthOf (bits : Nat) : Option Width :=
  if bits = 8 then some .w8 else if bits = 16 then some .w16 else none

/-- The value a write carries at its width: an 8-bit write uses value[7:0] and its other bits are ignored
(30_encoding.md R80, R81). -/
def operandValue : Width → Half → Half
  | .w8, v => (v.extractLsb' 0 8).setWidth 16
  | .w16, v => v

/-- The `io` read branch of `classify` (30_encoding.md R83). -/
def classifyIoRead (p : Params) (a : BusAddr) (w : Width) : Instr :=
  if a = p.uartData then .uartRdData w
  else if a = p.uartStatus then .uartRdStatus w
  else if a = p.sense then .swRd w
  else .ioRdUnhandled a w

/-- The `io` write branch of `classify` (30_encoding.md R83). -/
def classifyIoWrite (p : Params) (a : BusAddr) (w : Width) (v : Half) : Instr :=
  if a = p.uartData then .uartWrData w v
  else if a = p.uartCtrl then .uartWrCtrl w v
  else if a = p.uartBaud then .uartWrBaud w v
  else if a = p.picMCmd then .picWrMCmd w v
  else if a = p.picMData then .picWrMData w v
  else if a = p.picSCmd then .picWrSCmd w v
  else if a = p.picSData then .picWrSData w v
  else if a = p.ctcData then .ctcWrData w v
  else if a = p.ctcCtrl then .ctcWrCtrl w v
  else .ioWrUnhandled a w v

/-- `classify` (30_encoding.md R83), for a transaction whose width is `w`. -/
def classify (p : Params) (t : Txn) (w : Width) : Instr :=
  match t.space, t.dir with
  | .mem, .read => .memRd t.addr w
  | .mem, .write => .memWr t.addr w (operandValue w t.value)
  | .io, .read => classifyIoRead p t.addr w
  | .io, .write => classifyIoWrite p t.addr w (operandValue w t.value)

/-- The operation of a tuple; a width other than 8 or 16 is refused (20_memory.md R56). -/
def decodeTxn (p : Params) (t : Txn) : Except Reject Instr :=
  match widthOf t.width with
  | some w => .ok (classify p t w)
  | none => .error (.badWidth t.width)

/-- The operation of a packed word. -/
def decodeWord (p : Params) (T : Packed) : Except Reject Instr :=
  match unpack T with
  | .ok t => decodeTxn p t
  | .error r => .error r

/-- What an input asks for: an operation, a refusal, or (a boundary, an event) no transaction at all. -/
def decodeInput (p : Params) : BusInput → Option (Except Reject Instr)
  | .word T => some (decodeWord p T)
  | .txn t => some (decodeTxn p t)
  | .boundary => none
  | .event _ => none

/-! The encoder. -/

/-- The `space` bit of 30_encoding.md R81. -/
def Space.bit : Space → BitVec 1
  | .mem => 0
  | .io => 1

/-- The `dir` bit of 30_encoding.md R81. -/
def Dir.bit : Dir → BitVec 1
  | .read => 0
  | .write => 1

/-- The `width` bit of 30_encoding.md R81. -/
def Width.bit : Width → BitVec 1
  | .w8 => 0
  | .w16 => 1

/-- The access width in bits. -/
def Width.bits : Width → Nat
  | .w8 => 8
  | .w16 => 16

/-- The packed word of its fields (30_encoding.md R81): five zero bits, then space, dir, width, addr, value. -/
def packFields (sp : Space) (d : Dir) (w : Width) (a : BusAddr) (v : Half) : Packed :=
  (0 : BitVec 5) ++ sp.bit ++ d.bit ++ w.bit ++ a ++ v

/-- The packed word of an operation under a port map (30_encoding.md R86); the value of a read is 0. -/
def encode (p : Params) : Instr → Packed
  | .uartRdData w => packFields .io .read w p.uartData 0
  | .uartRdStatus w => packFields .io .read w p.uartStatus 0
  | .swRd w => packFields .io .read w p.sense 0
  | .ioRdUnhandled a w => packFields .io .read w a 0
  | .uartWrData w v => packFields .io .write w p.uartData v
  | .uartWrCtrl w v => packFields .io .write w p.uartCtrl v
  | .uartWrBaud w v => packFields .io .write w p.uartBaud v
  | .picWrMCmd w v => packFields .io .write w p.picMCmd v
  | .picWrMData w v => packFields .io .write w p.picMData v
  | .picWrSCmd w v => packFields .io .write w p.picSCmd v
  | .picWrSData w v => packFields .io .write w p.picSData v
  | .ctcWrData w v => packFields .io .write w p.ctcData v
  | .ctcWrCtrl w v => packFields .io .write w p.ctcCtrl v
  | .ioWrUnhandled a w v => packFields .io .write w a v
  | .memRd a w => packFields .mem .read w a 0
  | .memWr a w v => packFields .mem .write w a v

/-- The canonical spelling of a word (30_encoding.md R81): the ignored value bits are 0. -/
def canonicalWord (T : Packed) : Packed :=
  if T.extractLsb' 49 1 = 0 then T.extractLsb' 16 40 ++ (0 : BitVec 16)
  else if T.extractLsb' 48 1 = 0 then T.extractLsb' 16 40 ++ (0 : BitVec 8) ++ T.extractLsb' 0 8
  else T

/-! The opcode table's numbering. -/

/-- A table word of `nbits` bits as a packed word. A number that fits no packed word gives the word of all ones, which is
refused. -/
def tableWord (nbits w : Nat) : Packed :=
  if w % 2 ^ nbits < 2 ^ 56 then BitVec.ofNat 56 (w % 2 ^ nbits) else BitVec.allOnes 56

/-- The operation the decoder reads from a table word, under the table's own port map (30_encoding.md R86: the defaults). -/
def decodeTableWord (nbits w : Nat) : Option Instr :=
  match decodeWord Params.default (tableWord nbits w) with
  | .ok i => some i
  | .error _ => none

end Sys2Proof
end

