-- ==== Sys2Proof/Machine/State.lean ====
section
/-! DEFINITION. Machine/State.lean: the state of the block (10_state.md R20) and of what stands around it, its reset value,
and the reasons a step can stop. -/

namespace Sys2Proof.Machine

/-- The UART receive cell, exactly one deep (10_state.md R21). -/
inductive RxCell where
  | empty
  | holding (b : Byte)
deriving DecidableEq, Repr

/-- Shutdown progress (10_state.md R22). -/
inductive Phase where
  | running
  | stopRequested
  | terminated
deriving DecidableEq, Repr

/-- The order `Running` < `StopRequested` < `Terminated` (10_state.md R22), as a number. -/
def Phase.rank : Phase → Nat
  | .running => 0
  | .stopRequested => 1
  | .terminated => 2

/-- Why `halt_req` is set (60_exceptions.md R180 to R184: these four are all the causes). -/
inductive Cause where
  | unhandledRead
  | unhandledWrite
  | hostInputError
  | stopRequested
deriving DecidableEq, Repr

/-- The names the eight write sinks log under (41_uart.md R135, R136; 42_pic.md R150 to R153; 43_timer.md R160, R161). -/
inductive SinkName where
  | uartCtrl
  | uartBaud
  | picMCmd
  | picMData
  | picSCmd
  | picSData
  | ctcData
  | ctcCtrl
deriving DecidableEq, Repr

/-- A diagnostic event (10_state.md R25). `Unhandled` carries no value in a read. -/
inductive LogEvent where
  | accepted (name : SinkName) (addr : BusAddr) (width : Width) (value : Half)
  | unhandled (dir : Dir) (addr : BusAddr) (width : Width) (value : Option Half)
deriving DecidableEq, Repr

/-- What a transaction gives back to the bus master (30_encoding.md R82): nothing (a write), 8 bits or 16 bits. -/
inductive Response where
  | none
  | byte (b : Byte)
  | word (v : Half)
deriving DecidableEq, Repr

/-- A call of `DefaultMem` (20_memory.md R53). A write's value is the one passed on, at its own width (40_dispatch.md R117). -/
inductive MemCall where
  | read (addr : MemAddr) (width : Width)
  | write (addr : MemAddr) (width : Width) (value : Half)
deriving DecidableEq, Repr

/-- The bytes of the flat memory behind the decoder (20_memory.md R53): listed bytes, addresses strictly rising. An address that is not listed
is unwritten (70_reset_and_hazards.md R212, log 8). -/
abbrev Memory := List Host.Cell

/-- The state. The first six fields are the block's (10_state.md R20); the others are the model's own
(logs 1 to 8, 13, 14, 27). -/
structure State where
  /-- `rx_cell` -/
  rxCell : RxCell
  /-- `phase` -/
  phase : Phase
  /-- `halt_req` -/
  haltReq : Bool
  /-- `halt_causes`, in order of raising -/
  haltCauses : List Cause
  /-- `out`, every byte given to `HostEmit` -/
  out : List Byte
  /-- `log`, every event given to `Log` -/
  log : List LogEvent
  /-- The flat `DefaultMem`; behind an external one, the image it was loaded with (70_reset_and_hazards.md R211). -/
  mem : Memory
  /-- Every call made of `DefaultMem`, in order. -/
  memCalls : List MemCall
  /-- The next answers of an external `DefaultMem` to `MemRead`, oldest first. -/
  memIn : List Half
  /-- The parameters of 00_scope.md R5; no step changes them. -/
  params : Params
  /-- The response of the last transaction. -/
  result : Response
  /-- The inputs not taken yet, oldest first. -/
  bus : List BusInput
  /-- The host's next answers to `HostPull()`, oldest first. -/
  hostIn : List HostAnswer
  /-- How many times `HostPull()` has been called. -/
  pulls : Nat
  /-- How many free bytes have been drawn. -/
  draws : Nat
deriving DecidableEq, Repr

/-- Why the machine stops. -/
inductive Fault where
  /-- Raised by `access` and `atBoundary` when `phase` is `Terminated`: the block has no step (40_dispatch.md R110,
  93_implementation_defined.md U6: stuck). Safe: the model stops where the spec has no step either. -/
  | runOver
  /-- Raised by `takeEvent` for an event that is not enabled in this phase (60_exceptions.md R187 to R189). Safe: no such
  event is delivered to the block. -/
  | eventNotEnabled (e : Event)
deriving DecidableEq, Repr

/-- Why a step has no meaning. -/
inductive Refusal where
  /-- Raised by a rejected arm of `exec`. Safe. No arm is rejected. -/
  | notModelled (mnemonic : String)
  /-- Raised by `access` for a transaction whose width is neither 8 nor 16 (20_memory.md R56: refused). Safe. -/
  | badWidth (bits : Nat)
  /-- Raised by `access` for a packed word with a reserved bit set (30_encoding.md R81, R87 (b): refused). Safe. -/
  | reservedWord (T : Packed)
deriving DecidableEq, Repr

/-- The power-on state (10_state.md R33 to R35, R38) before any image is placed, with nothing issued yet.
The fields after `log` are the model's own; their values are named in logs 1 to 8, 13, 14 and 27. -/
def State.reset : State where
  rxCell := .empty
  phase := .running
  haltReq := false
  haltCauses := []
  out := []
  log := []
  mem := []
  memCalls := []
  memIn := []
  params := Params.default
  result := .none
  bus := []
  hostIn := []
  pulls := 0
  draws := 0

end Sys2Proof.Machine
end

