-- ==== Sys2Proof/Machine/Memory.lean ====
section
/-! DEFINITION. Machine/Memory.lean: one byte of the memory behind the decoder, and its canonical form (20_memory.md R53). -/

namespace Sys2Proof.Machine

/-- The byte listed at an address, if one is. -/
def Memory.read : Memory → Nat → Option Byte
  | [], _ => none
  | (k, v) :: rest, a => if a = k then some v else Memory.read rest a

/-- One byte written: the list stays in rising order. -/
def Memory.write : Memory → Nat → Byte → Memory
  | [], a, b => [(a, b)]
  | (k, v) :: rest, a, b =>
    if a < k then (a, b) :: (k, v) :: rest
    else if a = k then (a, b) :: rest
    else (k, v) :: Memory.write rest a b

/-- Addresses strictly rising, none below `lo`, none at or past `TOP_OF_SPACE`. -/
def Memory.risingFrom : Nat → Memory → Bool
  | _, [] => true
  | lo, (k, _) :: rest => decide (lo ≤ k) && decide (k < Config.topOfSpace) && Memory.risingFrom (k + 1) rest

/-- The canonical form. An unlisted address reads as no value, so no entry can equal what it reads as. -/
def Memory.wf (m : Memory) : Bool := Memory.risingFrom 0 m

/-- Consecutive bytes from an address up, first byte lowest (70_reset_and_hazards.md R211). -/
def cellsFrom : Nat → List Byte → Memory
  | _, [] => []
  | a, b :: rest => (a, b) :: cellsFrom (a + 1) rest

end Sys2Proof.Machine
end

