-- ==== Sys2Proof/Machine/Ops.lean ====
section
/-! DEFINITION. Machine/Ops.lean: the primitives of 00_scope.md R8, `TRYRX` (41_uart.md R131), `STOPCHK` (40_dispatch.md R111)
and `raise` (60_exceptions.md R185), the block's one way of taking an exception. There is no return from it
(60_exceptions.md R192: `halt_req` is never cleared). -/

namespace Sys2Proof.Machine

/-- `raise c` (60_exceptions.md R185): the request is set and the cause appended, and nothing else happens. -/
def raise (c : Cause) (s : State) : State :=
  { s with haltReq := true, haltCauses := s.haltCauses ++ [c] }

/-- `Log(e)` (10_state.md R25). -/
def logEvent (e : LogEvent) (s : State) : State := { s with log := s.log ++ [e] }

/-- `HostEmit(b)` (20_memory.md R67). DESIGN CHOICE (log 20): it always succeeds, the spec's decision D21. -/
def hostEmit (b : Byte) (s : State) : State := { s with out := s.out ++ [b] }

/-- `rx_cell <- c`. -/
def setCell (c : RxCell) (s : State) : State := { s with rxCell := c }

/-- `phase <- p`. -/
def setPhase (p : Phase) (s : State) : State := { s with phase := p }

/-- What a transaction gives back (30_encoding.md R82). -/
def respond (r : Response) (s : State) : State := { s with result := r }

/-- The free byte the next `draw8()` gives (00_scope.md R8, log 6). -/
def drawnByte (s : State) : Byte := Config.freeByte s.draws

/-- One `draw8()` has been used. -/
def drawUsed (s : State) : State := { s with draws := s.draws + 1 }

/-- The answer of the next `HostPull()`: the queued one, or a free one when none is queued (41_uart.md R130, log 5). -/
def nextAnswer (s : State) : HostAnswer :=
  match s.hostIn with
  | a :: _ => a
  | [] => Config.hostAnswer s.pulls

/-- One `HostPull()` has been made. -/
def pullUsed (s : State) : State := { s with hostIn := s.hostIn.tail, pulls := s.pulls + 1 }

/-- The substitution of `TRYRX`: `RX_LF` becomes `RX_CR`, every other byte stays (41_uart.md R131). -/
def rxTranslate (b : Byte) : Byte := if b = Config.rxLf then Config.rxCr else b

/-- The substitution of a transmitted byte: `TX_EOL` becomes `HOST_NL`, every other byte stays (41_uart.md R134). -/
def txTranslate (b : Byte) : Byte := if b = Config.txEol then Config.hostNl else b

/-- `TRYRX()` (41_uart.md R131): one pull when the cell is empty, nothing at all when it is full. -/
def tryRx (s : State) : State :=
  match s.rxCell with
  | .holding _ => s
  | .empty =>
    match nextAnswer s with
    | .byte b => setCell (.holding (rxTranslate b)) (pullUsed s)
    | .wouldBlock => pullUsed s
    | .error => raise .hostInputError (pullUsed s)

/-- `STOPCHK()` (40_dispatch.md R111): the cause is appended at every transaction in `StopRequested` (90_conflicts.md C12). -/
def stopChk (s : State) : State :=
  match s.phase with
  | .stopRequested => raise .stopRequested s
  | .running | .terminated => s

/-- The next input has been taken from the queue. -/
def busTaken (s : State) : State := { s with bus := s.bus.tail }

/-- A call of `DefaultMem` has been made (20_memory.md R53). -/
def callMem (c : MemCall) (s : State) : State := { s with memCalls := s.memCalls ++ [c] }

/-- `MemRead(a, 1)` of the flat memory (20_memory.md R53). An unwritten byte gives a draw (70_reset_and_hazards.md R212,
log 8). -/
def memByte (a : MemAddr) (s : State) : Byte :=
  match s.mem.read a.toNat with
  | some b => b
  | none => drawnByte s

/-- The state after that read: a draw has been used if the byte was unwritten. -/
def memByteRead (a : MemAddr) (s : State) : State :=
  match s.mem.read a.toNat with
  | some _ => s
  | none => drawUsed s

/-- `MemWrite(a, 1, b)` of the flat memory (20_memory.md R53). -/
def putMem (a : MemAddr) (b : Byte) (s : State) : State := { s with mem := s.mem.write a.toNat b }

/-- The byte of the image that a one-byte read finds at power-on, before any call has been made, in every memory
(70_reset_and_hazards.md R211). -/
def imageByte (w : Width) (a : MemAddr) (s : State) : Option Byte :=
  match w, s.memCalls with
  | .w8, [] => s.mem.read a.toNat
  | .w8, _ :: _ => none
  | .w16, _ => none

/-- What an external memory answers when no answer is queued: a draw for each byte (log 27). -/
def drawnAnswer (w : Width) (s : State) : Half :=
  match w with
  | .w8 => (drawnByte s).setWidth 16
  | .w16 => drawnByte (drawUsed s) ++ drawnByte s

/-- One draw for each byte has been used. -/
def drawsUsed (w : Width) (s : State) : State :=
  match w with
  | .w8 => drawUsed s
  | .w16 => drawUsed (drawUsed s)

/-- The answer of an external memory to `MemRead(a, n)`: the image's byte at power-on, otherwise the queued answer, or a free
one when none is queued (20_memory.md R53, log 27). -/
def externalAnswer (w : Width) (a : MemAddr) (s : State) : Half :=
  match imageByte w a s, s.memIn with
  | some b, _ => b.setWidth 16
  | none, v :: _ => v
  | none, [] => drawnAnswer w s

/-- That answer has been taken. -/
def externalAnswered (w : Width) (a : MemAddr) (s : State) : State :=
  match imageByte w a s, s.memIn with
  | some _, _ => s
  | none, _ :: rest => { s with memIn := rest }
  | none, [] => drawsUsed w s

end Sys2Proof.Machine
end

