-- ==== Sys2Proof/Machine/Operands.lean ====
section
/-! DEFINITION. Machine/Operands.lean: every operand form: the written byte and the result of a register access
(20_memory.md R54, 30_encoding.md R84), and the forwarded memory accesses (20_memory.md R53, R60). -/

namespace Sys2Proof.Machine

/-- `trunc8(t.value)`, the written byte for both widths (30_encoding.md R84). -/
def writtenByte (v : Half) : Byte := v.extractLsb' 0 8

/-- The result of a register read that gives `r`: `r` at 8 bits, `draw8() ++ r` at 16 (30_encoding.md R84). -/
def registerResult (w : Width) (r : Byte) (s : State) : Response :=
  match w with
  | .w8 => .byte r
  | .w16 => .word (drawnByte s ++ r)

/-- A register read answers `r`; a 16-bit one uses one draw. -/
def respondRegister (w : Width) (r : Byte) (s : State) : State :=
  respond (registerResult w r s)
    (match w with
     | .w8 => s
     | .w16 => drawUsed s)

/-- `addr & MEM_MASK`, that is addr[19:0] (20_memory.md R60). -/
def forwardAddr (a : BusAddr) : MemAddr := (a &&& Config.memMask).setWidth 20

/-- A memory's answer as the response of a read of that width (30_encoding.md R82). -/
def memoryResponse (w : Width) (v : Half) : Response :=
  match w with
  | .w8 => .byte (v.extractLsb' 0 8)
  | .w16 => .word v

/-- `MemRead(a, n)` of the flat memory. At 16 bits the low byte comes from `a`, the high byte from `a + 1` wrapped
into 20 bits. DESIGN CHOICE (log 7): the instantiation 20_memory.md R53 suggests. -/
def respondFlat (w : Width) (a : MemAddr) (s : State) : State :=
  match w with
  | .w8 => respond (.byte (memByte a s)) (memByteRead a s)
  | .w16 =>
    respond (.word (memByte (a + 1) (memByteRead a s) ++ memByte a s)) (memByteRead (a + 1) (memByteRead a s))

/-- `MemRead(a, n)` of an external memory, of which nothing is assumed (20_memory.md R53, log 27). -/
def respondExternal (w : Width) (a : MemAddr) (s : State) : State :=
  respond (memoryResponse w (externalAnswer w a s)) (externalAnswered w a s)

/-- The answer to `MemRead(a, n)`, from the memory that the parameter `DefaultMem` names. -/
def answerRead (w : Width) (a : MemAddr) (s : State) : State :=
  match s.params.memory with
  | .flat => respondFlat w a s
  | .external => respondExternal w a s

/-- `MemRead(a, n)` answered to the bus master (20_memory.md R53). -/
def respondMemory (w : Width) (a : MemAddr) (s : State) : State := callMem (.read a w) (answerRead w a s)

/-- `MemWrite(a, n, v)` of the flat memory, low byte at `a`, high byte at `a + 1` wrapped into 20 bits (log 7). -/
def storeFlat (w : Width) (a : MemAddr) (v : Half) (s : State) : State :=
  match w with
  | .w8 => putMem a (writtenByte v) s
  | .w16 => putMem (a + 1) (v.extractLsb' 8 8) (putMem a (writtenByte v) s)

/-- The effect of `MemWrite(a, n, v)` in the memory that the parameter `DefaultMem` names. What an external memory keeps of
it is its own affair. -/
def answerWrite (w : Width) (a : MemAddr) (v : Half) (s : State) : State :=
  match s.params.memory with
  | .flat => storeFlat w a v s
  | .external => s

/-- `MemWrite(a, n, v)` (20_memory.md R53), with the value 40_dispatch.md R117 passes on. -/
def storeMemory (w : Width) (a : MemAddr) (v : Half) (s : State) : State :=
  callMem (.write a w (operandValue w v)) (answerWrite w a v s)

/-- The addresses `storeFlat` stores to. -/
def storedAddrs : Width → MemAddr → List MemAddr
  | .w8, a => [a]
  | .w16, a => [a, a + 1]

/-- A write sink (10_state.md R30): one `Accepted` event, nothing returned, no other state touched. -/
def sinkWrite (name : SinkName) (addr : BusAddr) (w : Width) (v : Half) (s : State) : State :=
  respond .none (logEvent (.accepted name addr w v) s)

end Sys2Proof.Machine
end

