-- ==== Sys2Proof/Machine/Ctc.lean ====
section
/-! DEFINITION. Machine/Ctc.lean: the two counter/timer operations, both write sinks (43_timer.md R160, R161). -/

namespace Sys2Proof.Machine

/-- `CTC.WR.DATA` (43_timer.md R160). -/
def execCtcWrData (w : Width) (v : Half) (s : State) : Host.Outcome State Fault Refusal :=
  .next (sinkWrite .ctcData s.params.ctcData w v s)

/-- `CTC.WR.CTRL` (43_timer.md R161). -/
def execCtcWrCtrl (w : Width) (v : Half) (s : State) : Host.Outcome State Fault Refusal :=
  .next (sinkWrite .ctcCtrl s.params.ctcCtrl w v s)

end Sys2Proof.Machine
end

