-- ==== Sys2Proof/Machine/Mem.lean ====
section
/-! DEFINITION. Machine/Mem.lean: the memory fallback (40_dispatch.md R116, R117). -/

namespace Sys2Proof.Machine

/-- `MEM.RD` (40_dispatch.md R116). -/
def execMemRd (a : BusAddr) (w : Width) (s : State) : Host.Outcome State Fault Refusal :=
  .next (respondMemory w (forwardAddr a) s)

/-- `MEM.WR` (40_dispatch.md R117). -/
def execMemWr (a : BusAddr) (w : Width) (v : Half) (s : State) : Host.Outcome State Fault Refusal :=
  .next (respond .none (storeMemory w (forwardAddr a) v s))

end Sys2Proof.Machine
end

