-- ==== Sys2Proof/Machine/Pic.lean ====
section
/-! DEFINITION. Machine/Pic.lean: the four interrupt-controller operations, all write sinks (42_pic.md R150 to R153). -/

namespace Sys2Proof.Machine

/-- `PIC.WR.M_CMD` (42_pic.md R150). -/
def execPicWrMCmd (w : Width) (v : Half) (s : State) : Host.Outcome State Fault Refusal :=
  .next (sinkWrite .picMCmd s.params.picMCmd w v s)

/-- `PIC.WR.M_DATA` (42_pic.md R151). -/
def execPicWrMData (w : Width) (v : Half) (s : State) : Host.Outcome State Fault Refusal :=
  .next (sinkWrite .picMData s.params.picMData w v s)

/-- `PIC.WR.S_CMD` (42_pic.md R152). -/
def execPicWrSCmd (w : Width) (v : Half) (s : State) : Host.Outcome State Fault Refusal :=
  .next (sinkWrite .picSCmd s.params.picSCmd w v s)

/-- `PIC.WR.S_DATA` (42_pic.md R153). -/
def execPicWrSData (w : Width) (v : Half) (s : State) : Host.Outcome State Fault Refusal :=
  .next (sinkWrite .picSData s.params.picSData w v s)

end Sys2Proof.Machine
end

