-- ==== Sys2Proof/Machine/Sense.lean ====
section
/-! DEFINITION. Machine/Sense.lean: the sense-switch port (44_sense_switch.md R170). -/

namespace Sys2Proof.Machine

/-- `SW.RD` (44_sense_switch.md R170). -/
def execSwRd (w : Width) (s : State) : Host.Outcome State Fault Refusal :=
  .next (respondRegister w Config.senseValue s)

end Sys2Proof.Machine
end

