-- ==== Sys2Proof/Machine/Flags.lean ====
section
/-! DEFINITION. Machine/Flags.lean: the block's only two flags and the status byte they stand in (10_state.md R27). -/

namespace Sys2Proof.Machine

/-- `TXRDY`, status bit 0: always 1 (10_state.md R27). -/
def txRdy : BitVec 1 := 1

/-- `RXRDY`, status bit 1: 1 exactly when the cell holds a byte (10_state.md R27). -/
def rxRdy (s : State) : BitVec 1 :=
  match s.rxCell with
  | .empty => 0
  | .holding _ => 1

/-- `(UART_STATUS_UPPER << 2) | (rxrdy << 1) | 1` (41_uart.md R133, 30_encoding.md R91 (e)). -/
def statusByte (s : State) : Byte :=
  (s.params.statusUpper.setWidth 8 <<< 2) ||| ((rxRdy s).setWidth 8 <<< 1) ||| txRdy.setWidth 8

end Sys2Proof.Machine
end

