-- ==== Sys2Proof/Machine/Uart.lean ====
section
/-! DEFINITION. Machine/Uart.lean: the five UART operations (41_uart.md R132 to R136). -/

namespace Sys2Proof.Machine

/-- What a data read gives: the held byte, or `FILL` (41_uart.md R132). -/
def dataByte (s : State) : Byte :=
  match s.rxCell with
  | .holding b => b
  | .empty => Config.fill

/-- `UART.RD.DATA` (41_uart.md R132). -/
def execUartRdData (w : Width) (s : State) : Host.Outcome State Fault Refusal :=
  .next (respondRegister w (dataByte (tryRx s)) (setCell .empty (tryRx s)))

/-- `UART.RD.STATUS` (41_uart.md R133). -/
def execUartRdStatus (w : Width) (s : State) : Host.Outcome State Fault Refusal :=
  .next (respondRegister w (statusByte (tryRx s)) (tryRx s))

/-- `UART.WR.DATA` (41_uart.md R134). -/
def execUartWrData (_w : Width) (v : Half) (s : State) : Host.Outcome State Fault Refusal :=
  .next (respond .none (hostEmit (txTranslate (writtenByte v)) s))

/-- `UART.WR.CTRL` (41_uart.md R135). -/
def execUartWrCtrl (w : Width) (v : Half) (s : State) : Host.Outcome State Fault Refusal :=
  .next (sinkWrite .uartCtrl s.params.uartCtrl w v s)

/-- `UART.WR.BAUD` (41_uart.md R136). -/
def execUartWrBaud (w : Width) (v : Half) (s : State) : Host.Outcome State Fault Refusal :=
  .next (sinkWrite .uartBaud s.params.uartBaud w v s)

end Sys2Proof.Machine
end

