-- ==== Sys2Proof/Machine/Unhandled.lean ====
section
/-! DEFINITION. Machine/Unhandled.lean: the two unhandled `io` operations (40_dispatch.md R112, R113). -/

namespace Sys2Proof.Machine

/-- `IO.RD.UNHANDLED` (40_dispatch.md R112). -/
def execIoRdUnhandled (a : BusAddr) (w : Width) (s : State) : Host.Outcome State Fault Refusal :=
  .next (respondRegister w Config.fill (raise .unhandledRead (logEvent (.unhandled .read a w none) s)))

/-- `IO.WR.UNHANDLED` (40_dispatch.md R113). -/
def execIoWrUnhandled (a : BusAddr) (w : Width) (v : Half) (s : State) : Host.Outcome State Fault Refusal :=
  .next (respond .none (raise .unhandledWrite (logEvent (.unhandled .write a w (some v)) s)))

end Sys2Proof.Machine
end

