-- ==== Sys2Proof/Machine/Dispatch.lean ====
section
/-! DEFINITION. Machine/Dispatch.lean: "perform op" of 40_dispatch.md R110, one arm per operation. -/

namespace Sys2Proof.Machine

def exec (i : Instr) (s : State) : Host.Outcome State Fault Refusal :=
  match i with
  | .uartRdData w => Sys2Proof.Machine.execUartRdData w s
  | .uartRdStatus w => Sys2Proof.Machine.execUartRdStatus w s
  | .swRd w => Sys2Proof.Machine.execSwRd w s
  | .ioRdUnhandled a w => Sys2Proof.Machine.execIoRdUnhandled a w s
  | .uartWrData w v => Sys2Proof.Machine.execUartWrData w v s
  | .uartWrCtrl w v => Sys2Proof.Machine.execUartWrCtrl w v s
  | .uartWrBaud w v => Sys2Proof.Machine.execUartWrBaud w v s
  | .picWrMCmd w v => Sys2Proof.Machine.execPicWrMCmd w v s
  | .picWrMData w v => Sys2Proof.Machine.execPicWrMData w v s
  | .picWrSCmd w v => Sys2Proof.Machine.execPicWrSCmd w v s
  | .picWrSData w v => Sys2Proof.Machine.execPicWrSData w v s
  | .ctcWrData w v => Sys2Proof.Machine.execCtcWrData w v s
  | .ctcWrCtrl w v => Sys2Proof.Machine.execCtcWrCtrl w v s
  | .ioWrUnhandled a w v => Sys2Proof.Machine.execIoWrUnhandled a w v s
  | .memRd a w => Sys2Proof.Machine.execMemRd a w s
  | .memWr a w v => Sys2Proof.Machine.execMemWr a w v s

end Sys2Proof.Machine
end

