-- ==== Sys2Proof/Machine/Access.lean ====
section
/-! DEFINITION. Machine/Access.lean: `ACCESS` (40_dispatch.md R110), the asynchronous events (60_exceptions.md R187 to R189),
the bus master's boundary (R186), the block over a memory
given as an argument (20_memory.md R53), and the power-on image (70_reset_and_hazards.md R210, R211). -/

namespace Sys2Proof.Machine

/-- The stop for a word or tuple without a meaning (30_encoding.md R87 (b)). -/
def refusalOf : Reject → Refusal
  | .badWidth bits => .badWidth bits
  | .reservedBits T => .reservedWord T

/-- The early return of 40_dispatch.md R110 when `STOP_ACCESS_SERVICED` is false: nothing is decoded, and each byte of a
read's result is a draw (log 14). -/
def respondUnserviced (i : Instr) (s : State) : State :=
  match i.readWidth with
  | none => respond .none s
  | some .w8 => respond (.byte (drawnByte s)) (drawUsed s)
  | some .w16 => respond (.word (drawnByte (drawUsed s) ++ drawnByte s)) (drawUsed (drawUsed s))

/-- The transaction is met in `StopRequested` by a decoder that returns early (40_dispatch.md R110). -/
def returnsEarly (s : State) : Bool := decide (s.phase = .stopRequested) && !s.params.stopAccessServiced

/-- `ACCESS(t)` (40_dispatch.md R110) for what the transaction decodes to. -/
def access (d : Except Reject Instr) (s : State) : Host.Outcome State Fault Refusal :=
  match s.phase with
  | .terminated => .fault .runOver
  | .running | .stopRequested =>
    match d with
    | .error r => .refused (refusalOf r)
    | .ok i => if returnsEarly s then .next (respondUnserviced i (stopChk s)) else exec i (stopChk s)

/-- An asynchronous event, where it is enabled (60_exceptions.md R187 to R189). -/
def takeEvent (e : Event) (s : State) : Host.Outcome State Fault Refusal :=
  match e, s.phase with
  | .stopSignal, .running => .next (setPhase .stopRequested s)
  | .stopSignal, .stopRequested => .fault (.eventNotEnabled .stopSignal)
  | .stopSignal, .terminated => .fault (.eventNotEnabled .stopSignal)
  | .killSignal, .running => .fault (.eventNotEnabled .killSignal)
  | .killSignal, .stopRequested => .next (setPhase .terminated s)
  | .killSignal, .terminated => .fault (.eventNotEnabled .killSignal)
  | .runLoopReturn, .running => .next (setPhase .terminated s)
  | .runLoopReturn, .stopRequested => .next (setPhase .terminated s)
  | .runLoopReturn, .terminated => .fault (.eventNotEnabled .runLoopReturn)

/-- The bus master has completed an instruction (60_exceptions.md R186): with `halt_req` = 1 it delivers `RunLoopReturn`,
otherwise it goes on. -/
def atBoundary (s : State) : Host.Outcome State Fault Refusal :=
  match s.phase with
  | .terminated => .fault .runOver
  | .running | .stopRequested => if s.haltReq then takeEvent .runLoopReturn s else .next s

/-- One input. -/
def takeInput (x : BusInput) (s : State) : Host.Outcome State Fault Refusal :=
  match x with
  | .word T => access (decodeWord s.params T) s
  | .txn t => access (decodeTxn s.params t) s
  | .boundary => atBoundary s
  | .event e => takeEvent e s

/-- The next input is taken; with none, the block does nothing (00_scope.md R9). -/
def takeNext (s : State) : Host.Outcome State Fault Refusal :=
  match s.bus with
  | [] => .next s
  | x :: _ => takeInput x (busTaken s)

/-- `DefaultMem` as an argument of the model (00_scope.md R5, 20_memory.md R53): its two functions, over states of its own of
which nothing is assumed. A read may change the memory's state too. -/
structure DefaultMem (σ : Type) where
  memRead : MemAddr → Width → σ → Half × σ
  memWrite : MemAddr → Width → Half → σ → σ

/-- The `MemRead` that the next input asks for, if it is a memory read. -/
def nextMemRead (s : State) : Option (MemAddr × Width) :=
  match s.bus with
  | [] => none
  | x :: _ =>
    match decodeInput s.params x with
    | some (.ok i) => memReadOf i
    | some (.error _) => none
    | none => none
where
  memReadOf : Instr → Option (MemAddr × Width)
    | .memRd a w => some (forwardAddr a, w)
    | .uartRdData _ | .uartRdStatus _ | .swRd _ | .ioRdUnhandled _ _ | .uartWrData _ _ | .uartWrCtrl _ _ | .uartWrBaud _ _
    | .picWrMCmd _ _ | .picWrMData _ _ | .picWrSCmd _ _ | .picWrSData _ _ | .ctcWrData _ _ | .ctcWrCtrl _ _
    | .ioWrUnhandled _ _ _ | .memWr _ _ _ => none

/-- What the memory answers to that read. -/
def memAnswers {σ : Type} (M : DefaultMem σ) (m : σ) (s : State) : List Half :=
  match nextMemRead s with
  | some (a, w) => [(M.memRead a w m).1]
  | none => []

/-- The memory's state after a call. -/
def afterCall {σ : Type} (M : DefaultMem σ) (m : σ) : MemCall → σ
  | .read a w => (M.memRead a w m).2
  | .write a w v => M.memWrite a w v m

/-- One step of the block over the memory `M`, for a block whose parameter `DefaultMem` is external: `M` answers the read
that the step makes, and every call that the step makes moves `M`'s state. -/
def takeNextOver {σ : Type} (M : DefaultMem σ) (m : σ) (s : State) : Host.Outcome (σ × State) Fault Refusal :=
  match takeNext { s with memIn := memAnswers M m s } with
  | .next t => .next ((t.memCalls.drop s.memCalls.length).foldl (afterCall M) m, t)
  | .fault r => .fault r
  | .refused r => .refused r

/-- `s` with the packed word of a table row as the next input (log 1). -/
def placeWord (s : State) (nbits w : Nat) : State := { s with bus := .word (tableWord nbits w) :: s.bus }

/-- The image sizes that are accepted (70_reset_and_hazards.md R210). -/
def romSizeOf (n : Nat) : Option RomSize :=
  if n = RomSize.kib2.bytes then some .kib2 else if n = RomSize.kib4.bytes then some .kib4 else none

/-- The lowest address of the image (70_reset_and_hazards.md R211). -/
def romBase (size : RomSize) : Nat := Config.topOfSpace - size.bytes

/-- The power-on state with the image `img` placed right-aligned below `TOP_OF_SPACE`, under the parameters `p`; an image of
another size gives no power-on (70_reset_and_hazards.md R210, R211). -/
def powerOn (p : Params) (img : List Byte) : Option State :=
  match romSizeOf img.length with
  | none => none
  | some size => some { State.reset with params := p, mem := cellsFrom (romBase size) img }

/-- The CPU's first fetch address, `RESET_CS` * 16 + `RESET_IP` (70_reset_and_hazards.md R213, log 21). -/
def entryPoint : MemAddr := ((Config.resetCs.setWidth 20) <<< 4) + Config.resetIp.setWidth 20

end Sys2Proof.Machine
end

