-- ==== Sys2Proof/Machine/Step.lean ====
section
/-! DEFINITION. Machine/Step.lean: one step, and where the next transaction is placed. -/

namespace Sys2Proof.Machine

/-- One step of the block: the next input is taken (00_scope.md R9). -/
def step (s : State) : Host.Outcome State Fault Refusal := takeNext s

/-- `s` with a table word as the input that the next step takes (log 1). -/
def State.withFetchWord (s : State) (nbits w : Nat) : State := placeWord s nbits w

end Sys2Proof.Machine
end

