-- ==== Sys2Proof/Safety.lean ====
section
/-! DEFINITION. Safety.lean: the terms the statements use: what holds of every state a run reaches, how a later state of a run
relates to an earlier one, when a run is free of fatal causes, and what a run's inputs amount to. -/

namespace Sys2Proof.Machine

/-- The causes a fatal `io` access raises (60_exceptions.md R180, R181). -/
def Cause.isUnhandled : Cause → Bool
  | .unhandledRead | .unhandledWrite => true
  | .hostInputError | .stopRequested => false

/-- The cause that goes with a log event, if one does (60_exceptions.md R180, R181). -/
def LogEvent.cause : LogEvent → Option Cause
  | .accepted _ _ _ _ => none
  | .unhandled .read _ _ _ => some .unhandledRead
  | .unhandled .write _ _ _ => some .unhandledWrite

/-- What holds of every state that a run reaches. -/
structure Inv (s : State) : Prop where
  /-- The port map meets the constraints of 00_scope.md R5. -/
  ports : s.params.wf = true
  /-- Memory is in canonical form. -/
  memory : s.mem.wf = true
  /-- The cell never holds `RX_LF` (41_uart.md R138 (a)). -/
  noLineFeed : s.rxCell ≠ .holding Config.rxLf
  /-- `halt_req` is set exactly when a cause has been recorded (60_exceptions.md R185, 10_state.md R35). -/
  haltHasCause : s.haltReq = true ↔ s.haltCauses ≠ []
  /-- `StopRequested` is a cause only after the first signal (60_exceptions.md R183). -/
  stopAfterSignal : Cause.stopRequested ∈ s.haltCauses → s.phase ≠ .running
  /-- The `Unhandled` events of the log and the unhandled causes are the same sequence (60_exceptions.md R180, R181). -/
  unhandledLogged : s.log.filterMap LogEvent.cause = s.haltCauses.filter Cause.isUnhandled

/-- `t` is a later state of a run than `s`: the phase has moved forward only, `halt_req` has not been cleared, the lists
of causes, output, log events and memory calls have only been appended to, and the parameters are the same (10_state.md R22
to R25, 20_memory.md R61, 30_encoding.md R90). -/
structure Later (s t : State) : Prop where
  phase : s.phase.rank ≤ t.phase.rank
  halt : s.haltReq = true → t.haltReq = true
  causes : s.haltCauses <+: t.haltCauses
  out : s.out <+: t.out
  log : s.log <+: t.log
  memCalls : s.memCalls <+: t.memCalls
  params : t.params = s.params

/-- Nothing fatal has happened: every recorded cause is the operator's stop (70_reset_and_hazards.md R221,
93_implementation_defined.md U4). -/
def NothingFatal (s : State) : Prop := ∀ c ∈ s.haltCauses, c = .stopRequested

/-- The result of a register read that gives `r`, when `d` draws have been used (20_memory.md R54). -/
def regAnswer (w : Width) (r : Byte) (d : Nat) : Response :=
  match w with
  | .w8 => .byte r
  | .w16 => .word (Config.freeByte d ++ r)

/-- The draws a register read uses (20_memory.md R54). -/
def regDraws : Width → Nat
  | .w8 => 0
  | .w16 => 1

/-- The significant low byte of a response (30_encoding.md R82). -/
def Response.lowByte : Response → Option Byte
  | .none => Option.none
  | .byte b => some b
  | .word v => some (v.extractLsb' 0 8)

/-- The byte a memory lists, or the draw numbered `d` where it lists none (70_reset_and_hazards.md R212). -/
def byteOrDraw (m : Memory) (a d : Nat) : Byte := (m.read a).getD (Config.freeByte d)

/-- The draws that byte uses. -/
def drawIfUnwritten (m : Memory) (a : Nat) : Nat :=
  match m.read a with
  | some _ => 0
  | none => 1

/-- The operation an input asks for, if it is a transaction with a meaning. -/
def opOf (p : Params) (x : BusInput) : Option Instr :=
  match decodeInput p x with
  | some (.ok i) => some i
  | some (.error _) => none
  | none => none

/-- The bytes an operation puts on the host's output (41_uart.md R134). -/
def emittedBy : Instr → List Byte
  | .uartWrData _ v =>
    [if v.extractLsb' 0 8 = Config.txEol then Config.hostNl else v.extractLsb' 0 8]
  | .uartRdData _ | .uartRdStatus _ | .swRd _ | .ioRdUnhandled _ _ | .uartWrCtrl _ _ | .uartWrBaud _ _ | .picWrMCmd _ _
  | .picWrMData _ _ | .picWrSCmd _ _ | .picWrSData _ _ | .ctcWrData _ _ | .ctcWrCtrl _ _ | .ioWrUnhandled _ _ _
  | .memRd _ _ | .memWr _ _ _ => []

/-- The bytes a list of inputs puts on the host's output, in order. -/
def emittedByInputs (p : Params) (xs : List BusInput) : List Byte :=
  xs.flatMap fun x => ((opOf p x).map emittedBy).getD []

/-- The input is a UART read (41_uart.md R131). -/
def asksUartRead (p : Params) (x : BusInput) : Bool := ((opOf p x).map Instr.isUartRead).getD false

/-- The input is a write to a sink (10_state.md R30). -/
def asksSink (p : Params) (x : BusInput) : Bool := ((opOf p x).map Instr.isSink).getD false

/-- The bytes held by a cell: none or one. -/
def cellBytes : RxCell → List Byte
  | .empty => []
  | .holding b => [b]

/-- The bytes among the host's answers, with every `RX_LF` replaced by `RX_CR` (41_uart.md R131). -/
def receivedFrom (as : List HostAnswer) : List Byte :=
  as.flatMap fun
    | .byte b => [if b = Config.rxLf then Config.rxCr else b]
    | .wouldBlock => []
    | .error => []

/-- The byte that an operation, if it is a data read that finds or pulls one, hands to the bus master
(41_uart.md R138 (b)). -/
def handedBy (i : Instr) (s : State) : List Byte :=
  match i with
  | .uartRdData _ =>
    match s.rxCell with
    | .holding b => [b]
    | .empty => receivedFrom [nextAnswer s]
  | .uartRdStatus _ | .swRd _ | .ioRdUnhandled _ _ | .uartWrData _ _ | .uartWrCtrl _ _ | .uartWrBaud _ _ | .picWrMCmd _ _
  | .picWrMData _ _ | .picWrSCmd _ _ | .picWrSData _ _ | .ctcWrData _ _ | .ctcWrCtrl _ _ | .ioWrUnhandled _ _ _
  | .memRd _ _ | .memWr _ _ _ => []

/-- The byte that the next step hands to the bus master. -/
def handedNext (s : State) : List Byte :=
  match s.bus with
  | [] => []
  | x :: _ =>
    match opOf s.params x with
    | some i => handedBy i s
    | none => []

/-- The bytes that `k` steps hand to the bus master, in order. -/
def handedDuring : Nat → State → List Byte
  | 0, _ => []
  | k + 1, s =>
    match step s with
    | .next t => handedNext s ++ handedDuring k t
    | .fault _ => []
    | .refused _ => []

end Sys2Proof.Machine
end

