-- ==== Sys2Proof/Certificates/Slice0/Obligations.lean ====
section
/-! DEFINITION. Certificates/Slice0/Obligations.lean: the statements. "log n" is notes/assumptions/n.md. -/

open Sys2Proof Sys2Proof.Machine

/-! ## Encoding (30_encoding.md) -/

/-- Decoding the packed word of a well-formed operation gives the operation back, under every port map. The packed form is
the spec's own notation (D4, log 9). -/
def Obligations.DecodeOfEncode : Prop :=
  ∀ (p : Params) (i : Instr), WellFormed p i = true → decodeWord p (encode p i) = .ok i

/-- Every word that decodes gives a well-formed operation, whose encoding is the word with its ignored bits cleared
(R81: "accepted and the extra bits are ignored; the canonical spelling has them 0"). -/
def Obligations.EncodeOfDecode : Prop :=
  ∀ (p : Params) (T : Packed) (i : Instr), decodeWord p T = .ok i → WellFormed p i = true ∧ encode p i = canonicalWord T

/-- The ignored bits of a word change nothing (R81). -/
def Obligations.IgnoredBitsDoNotMatter : Prop :=
  ∀ (p : Params) (T : Packed), T.extractLsb' 51 5 = 0 → decodeWord p T = decodeWord p (canonicalWord T)

/-- Words written out from the tables of R86 and 95_test_vectors.md (V1, V4, V16, V50, V31, V60, V71, V34, V39, V41), under the
default port map. The map's numbers are PRESUMED (log 2, unsafe): R86 itself marks them as general knowledge. -/
def Obligations.WrittenOutWordsDecode : Prop :=
  decodeWord Params.default 0x4000000F70000 = .ok (.uartRdStatus .w8) ∧
  decodeWord Params.default 0x4000000F60000 = .ok (.uartRdData .w8) ∧
  decodeWord Params.default 0x7000000F6418A = .ok (.uartWrData .w16 0x418A) ∧
  decodeWord Params.default 0x4000000FF0000 = .ok (.swRd .w8) ∧
  decodeWord Params.default 0x4000000000000 = .ok (.ioRdUnhandled 0 .w8) ∧
  decodeWord Params.default 0x6000000F00013 = .ok (.picWrMCmd .w8 0x13) ∧
  decodeWord Params.default 0x6000000F400F3 = .ok (.ctcWrData .w8 0xF3) ∧
  decodeWord Params.default 0x6000000FF0000 = .ok (.ioWrUnhandled 0xFF .w8 0) ∧
  decodeWord Params.default 0x10010FFEF0000 = .ok (.memRd 0x10FFEF .w16) ∧
  decodeWord Params.default 0x3000004001234 = .ok (.memWr 0x400 .w16 0x1234)

/-- A word spells a transaction exactly when its reserved bits are 0, and one that does not is refused under its own name
(R81, R87 (b)). The padding bits 55:52 are the model's (log 9). -/
def Obligations.WordsWithReservedBitsHaveNoMeaning : Prop :=
  ∀ (p : Params) (T : Packed),
    ((∃ i, decodeWord p T = .ok i) ↔ T.extractLsb' 51 5 = 0) ∧
    (T.extractLsb' 51 5 ≠ 0 → decodeWord p T = .error (.reservedBits T))

/-- A tuple has a meaning exactly when its width is 8 or 16 (20_memory.md R56, the spec's decision D17). -/
def Obligations.TuplesOfOtherWidthsHaveNoMeaning : Prop :=
  ∀ (p : Params) (t : Txn),
    ((∃ i, decodeTxn p t = .ok i) ↔ (t.width = 8 ∨ t.width = 16)) ∧
    (t.width ≠ 8 → t.width ≠ 16 → decodeTxn p t = .error (.badWidth t.width))

/-- The packed word of a tuple's fields decodes as the tuple does (R80, R81). -/
def Obligations.PackedWordAndTupleAgree : Prop :=
  ∀ (p : Params) (sp : Space) (d : Dir) (w : Width) (a : BusAddr) (v : Half),
    decodeWord p (packFields sp d w a v) = decodeTxn p ⟨sp, d, w.bits, a, v⟩

/-- The `io` read map of R83, for parameters that meet R5: the three read addresses and nothing else. -/
def Obligations.IoReadsFollowTheMap : Prop :=
  ∀ (p : Params) (w : Width) (a : BusAddr) (v : Half), p.wf = true →
    (decodeTxn p ⟨.io, .read, w.bits, a, v⟩ = .ok (.uartRdData w) ↔ a = p.uartData) ∧
    (decodeTxn p ⟨.io, .read, w.bits, a, v⟩ = .ok (.uartRdStatus w) ↔ a = p.uartStatus) ∧
    (decodeTxn p ⟨.io, .read, w.bits, a, v⟩ = .ok (.swRd w) ↔ a = p.sense) ∧
    (decodeTxn p ⟨.io, .read, w.bits, a, v⟩ = .ok (.ioRdUnhandled a w) ↔ a ∉ p.readPorts)

/-- The `io` write map of R83, for parameters that meet R5: the data address, the sinks, and nothing else. -/
def Obligations.IoWritesFollowTheMap : Prop :=
  ∀ (p : Params) (w : Width) (a : BusAddr) (v : Half), p.wf = true →
    (decodeTxn p ⟨.io, .write, w.bits, a, v⟩ = .ok (.uartWrData w (operandValue w v)) ↔ a = p.uartData) ∧
    ((∃ i, decodeTxn p ⟨.io, .write, w.bits, a, v⟩ = .ok i ∧ i.isSink = true) ↔ a ∈ p.sinkPorts) ∧
    (decodeTxn p ⟨.io, .write, w.bits, a, v⟩ = .ok (.ioWrUnhandled a w (operandValue w v)) ↔ a ∉ p.writePorts)

/-- When no two sinks share a number, each sink's port selects its own operation (R83). -/
def Obligations.DistinctSinkPortsSelectTheirOperation : Prop :=
  ∀ (p : Params) (w : Width) (v : Half), p.wf = true → p.sinkPorts.Nodup →
    decodeTxn p ⟨.io, .write, w.bits, p.uartCtrl, v⟩ = .ok (.uartWrCtrl w (operandValue w v)) ∧
    decodeTxn p ⟨.io, .write, w.bits, p.uartBaud, v⟩ = .ok (.uartWrBaud w (operandValue w v)) ∧
    decodeTxn p ⟨.io, .write, w.bits, p.picMCmd, v⟩ = .ok (.picWrMCmd w (operandValue w v)) ∧
    decodeTxn p ⟨.io, .write, w.bits, p.picMData, v⟩ = .ok (.picWrMData w (operandValue w v)) ∧
    decodeTxn p ⟨.io, .write, w.bits, p.picSCmd, v⟩ = .ok (.picWrSCmd w (operandValue w v)) ∧
    decodeTxn p ⟨.io, .write, w.bits, p.picSData, v⟩ = .ok (.picWrSData w (operandValue w v)) ∧
    decodeTxn p ⟨.io, .write, w.bits, p.ctcData, v⟩ = .ok (.ctcWrData w (operandValue w v)) ∧
    decodeTxn p ⟨.io, .write, w.bits, p.ctcCtrl, v⟩ = .ok (.ctcWrCtrl w (operandValue w v))

/-- Every `mem` access is forwarded whatever its address, a port's number included (40_dispatch.md R116 (c), R117 (b)). -/
def Obligations.MemoryAccessesAreNeverPorts : Prop :=
  ∀ (p : Params) (w : Width) (a : BusAddr) (v : Half),
    decodeTxn p ⟨.mem, .read, w.bits, a, v⟩ = .ok (.memRd a w) ∧
    decodeTxn p ⟨.mem, .write, w.bits, a, v⟩ = .ok (.memWr a w (operandValue w v))

/-- An access in a direction its address is not claimed in is unhandled (41_uart.md R137, 42_pic.md R154, 43_timer.md R163,
44_sense_switch.md R171): a read of a sink, a write to the switches, a write to the status address. -/
def Obligations.WrongDirectionIsUnhandled : Prop :=
  ∀ (p : Params) (w : Width) (v : Half),
    (∀ a ∈ p.sinkPorts, a ∉ p.readPorts →
      decodeTxn p ⟨.io, .read, w.bits, a, v⟩ = .ok (.ioRdUnhandled a w)) ∧
    (p.sense ∉ p.writePorts →
      decodeTxn p ⟨.io, .write, w.bits, p.sense, v⟩ = .ok (.ioWrUnhandled p.sense w (operandValue w v))) ∧
    (p.uartStatus ∉ p.writePorts →
      decodeTxn p ⟨.io, .write, w.bits, p.uartStatus, v⟩ = .ok (.ioWrUnhandled p.uartStatus w (operandValue w v)))

/-! ## The step (40_dispatch.md R110, R111) -/

/-- In `Running`, a step takes the next input and performs the operation it decodes to, and adds nothing. -/
def Obligations.StepPerformsTheDecodedOperation : Prop :=
  ∀ (s : State) (x : BusInput) (rest : List BusInput) (i : Instr),
    s.bus = x :: rest → decodeInput s.params x = some (.ok i) → s.phase = .running →
      step s = exec i { s with bus := rest }

/-- In `StopRequested`, with `STOP_ACCESS_SERVICED` true, the stop check sets the halt request and appends its cause, and the
operation is then performed (R110, R111; the spec's decision D12, log 14). -/
def Obligations.StepInStopRequestedRaisesThenPerforms : Prop :=
  ∀ (s : State) (x : BusInput) (rest : List BusInput) (i : Instr),
    s.bus = x :: rest → decodeInput s.params x = some (.ok i) → s.phase = .stopRequested →
    s.params.stopAccessServiced = true →
      step s = exec i
        { s with bus := rest, haltReq := true, haltCauses := s.haltCauses ++ [.stopRequested] }

/-- In `StopRequested`, with `STOP_ACCESS_SERVICED` false, the stop check is made and nothing is decoded: a write returns
nothing, and every byte of a read's result is a free value (R110, log 14). -/
def Obligations.UnservicedAccessReturnsDraws : Prop :=
  ∀ (s : State) (x : BusInput) (rest : List BusInput) (i : Instr),
    s.bus = x :: rest → decodeInput s.params x = some (.ok i) → s.phase = .stopRequested →
    s.params.stopAccessServiced = false →
      ∃ r d, step s = .next
        { s with bus := rest, haltReq := true, haltCauses := s.haltCauses ++ [.stopRequested], result := r, draws := d } ∧
        (i.readWidth = none → r = .none ∧ d = s.draws) ∧
        (i.readWidth = some .w8 → r = .byte (Config.freeByte s.draws) ∧ d = s.draws + 1) ∧
        (i.readWidth = some .w16 →
          r = .word (Config.freeByte (s.draws + 1) ++ Config.freeByte s.draws) ∧ d = s.draws + 2)

/-- No step exists for a transaction, a boundary or an event once `phase` is `Terminated` (R110, the spec's decision D22;
60_exceptions.md V85). The fault names are the model's (log 16). -/
def Obligations.NoInputIsTakenAfterTermination : Prop :=
  ∀ (s : State) (x : BusInput) (rest : List BusInput), s.bus = x :: rest → s.phase = .terminated →
    ((∀ e, x ≠ .event e) → step s = .fault .runOver) ∧
    (∀ e, x = .event e → step s = .fault (.eventNotEnabled e))

/-- A word with a reserved bit, and a tuple of another width, are refused under their own names before anything happens
(20_memory.md R56, 30_encoding.md R87 (b)). -/
def Obligations.MeaninglessTransactionsAreRefused : Prop :=
  ∀ (s : State) (rest : List BusInput), s.phase ≠ .terminated →
    (∀ T : Packed, s.bus = .word T :: rest → T.extractLsb' 51 5 ≠ 0 → step s = .refused (.reservedWord T)) ∧
    (∀ t : Txn, s.bus = .txn t :: rest → t.width ≠ 8 → t.width ≠ 16 → step s = .refused (.badWidth t.width))

/-- With no input the block does nothing (00_scope.md R9). That the model's step then answers the same state is its own
choice (log 1). -/
def Obligations.WithoutInputNothingChanges : Prop :=
  ∀ s : State, s.bus = [] → step s = .next s

/-- A word placed by `withFetchWord` is what the very next step performs (log 1). -/
def Obligations.PlacedTableWordIsPerformed : Prop :=
  ∀ (s : State) (nbits w : Nat) (i : Instr),
    s.phase = .running → s.params = Params.default → decodeTableWord nbits w = some i →
      step (s.withFetchWord nbits w) = exec i s

/-! ## Events and the bus master's boundary (60_exceptions.md) -/

/-- `StopSignal` is taken exactly in `Running`, and moves `phase` to `StopRequested` and nothing else (R187; between
transactions by the spec's decision D13). -/
def Obligations.StopSignalOnlySetsThePhase : Prop :=
  ∀ (s : State) (rest : List BusInput), s.bus = .event .stopSignal :: rest →
    (s.phase = .running → step s = .next { s with bus := rest, phase := .stopRequested }) ∧
    (s.phase ≠ .running → ∀ t, step s ≠ .next t)

/-- `KillSignal` is taken exactly in `StopRequested`, and moves `phase` to `Terminated`; it waits for no transaction and does
not set `halt_req` (R188). -/
def Obligations.KillSignalOnlySetsThePhase : Prop :=
  ∀ (s : State) (rest : List BusInput), s.bus = .event .killSignal :: rest →
    (s.phase = .stopRequested → step s = .next { s with bus := rest, phase := .terminated }) ∧
    (s.phase ≠ .stopRequested → ∀ t, step s ≠ .next t)

/-- `RunLoopReturn` is taken in `Running` and in `StopRequested`, with `halt_req` set or not, and moves `phase` to
`Terminated` (R189). That the model takes it between any two inputs is its own choice (log 15). -/
def Obligations.RunLoopReturnEndsTheRun : Prop :=
  ∀ (s : State) (rest : List BusInput), s.bus = .event .runLoopReturn :: rest →
    (s.phase ≠ .terminated → step s = .next { s with bus := rest, phase := .terminated }) ∧
    (s.phase = .terminated → ∀ t, step s ≠ .next t)

/-- At an instruction boundary the bus master delivers `RunLoopReturn` when `halt_req` is 1, and goes on when it is 0 (R186,
R189). The boundary as an input of its own is the model's choice (log 15). -/
def Obligations.BoundaryHonoursTheHaltRequest : Prop :=
  ∀ (s : State) (rest : List BusInput), s.bus = .boundary :: rest → s.phase ≠ .terminated →
    (s.haltReq = true → step s = .next { s with bus := rest, phase := .terminated }) ∧
    (s.haltReq = false → step s = .next { s with bus := rest })

/-- `phase` changes only by the transitions of R187 to R189, always forward, and no transaction changes it (R22). -/
def Obligations.OnlyEventsMoveThePhase : Prop :=
  ∀ s t : State, step s = .next t → t.phase ≠ s.phase →
    ∃ x rest, s.bus = x :: rest ∧
      ((x = .event .stopSignal ∧ s.phase = .running ∧ t.phase = .stopRequested) ∨
       (x = .event .killSignal ∧ s.phase = .stopRequested ∧ t.phase = .terminated) ∨
       (x = .event .runLoopReturn ∧ s.phase ≠ .terminated ∧ t.phase = .terminated) ∨
       (x = .boundary ∧ s.haltReq = true ∧ s.phase ≠ .terminated ∧ t.phase = .terminated))

/-! ## Completion -/

/-- Every operation completes, from every state and on all operands: no meaning faults or is refused
(40_dispatch.md R110; 30_encoding.md R82: no transaction returns an error). -/
def Obligations.EveryOperationCompletes : Prop :=
  ∀ (i : Instr) (s : State), ∃ t, exec i s = .next t

/-! ## The UART (41_uart.md) -/

/-- `UART.RD.DATA`, every case of the cell and of the host's answer, at both widths: the next state whole (R132, with the pull
of R131). Where `nextAnswer` comes from is log 5; the upper byte of a 16-bit result is a free value (log 6). -/
def Obligations.DataReadGivesTheByteAndEmptiesTheCell : Prop :=
  ∀ (w : Width) (s : State),
    (∀ b, s.rxCell = .holding b →
      exec (.uartRdData w) s = .next
        { s with rxCell := .empty, result := regAnswer w b s.draws, draws := s.draws + regDraws w }) ∧
    (∀ b, s.rxCell = .empty → nextAnswer s = .byte b →
      exec (.uartRdData w) s = .next
        { s with
          hostIn := s.hostIn.tail, pulls := s.pulls + 1
          result := regAnswer w (if b = Config.rxLf then Config.rxCr else b) s.draws
          draws := s.draws + regDraws w }) ∧
    (s.rxCell = .empty → nextAnswer s = .wouldBlock →
      exec (.uartRdData w) s = .next
        { s with
          hostIn := s.hostIn.tail, pulls := s.pulls + 1
          result := regAnswer w Config.fill s.draws
          draws := s.draws + regDraws w }) ∧
    (s.rxCell = .empty → nextAnswer s = .error →
      exec (.uartRdData w) s = .next
        { s with
          hostIn := s.hostIn.tail, pulls := s.pulls + 1
          haltReq := true, haltCauses := s.haltCauses ++ [.hostInputError]
          result := regAnswer w Config.fill s.draws
          draws := s.draws + regDraws w })

/-- `UART.RD.STATUS`, every case of the cell and of the host's answer, at both widths: the next state whole (R133, with the
pull of R131). Bit 0 is 1, bit 1 tells whether the cell holds a byte after the pull. That bits 7:2 are the constant parameter
`UART_STATUS_UPPER` is the spec's decision D6 (log 13, DEDUCED, unsafe): the source leaves them undefined. -/
def Obligations.StatusReadReportsTheCellAfterThePull : Prop :=
  ∀ (w : Width) (s : State),
    (∀ b, s.rxCell = .holding b →
      exec (.uartRdStatus w) s = .next
        { s with
          result := regAnswer w (s.params.statusUpper ++ 1#1 ++ 1#1) s.draws
          draws := s.draws + regDraws w }) ∧
    (∀ b, s.rxCell = .empty → nextAnswer s = .byte b →
      exec (.uartRdStatus w) s = .next
        { s with
          rxCell := .holding (if b = Config.rxLf then Config.rxCr else b)
          hostIn := s.hostIn.tail, pulls := s.pulls + 1
          result := regAnswer w (s.params.statusUpper ++ 1#1 ++ 1#1) s.draws
          draws := s.draws + regDraws w }) ∧
    (s.rxCell = .empty → nextAnswer s = .wouldBlock →
      exec (.uartRdStatus w) s = .next
        { s with
          hostIn := s.hostIn.tail, pulls := s.pulls + 1
          result := regAnswer w (s.params.statusUpper ++ 0#1 ++ 1#1) s.draws
          draws := s.draws + regDraws w }) ∧
    (s.rxCell = .empty → nextAnswer s = .error →
      exec (.uartRdStatus w) s = .next
        { s with
          hostIn := s.hostIn.tail, pulls := s.pulls + 1
          haltReq := true, haltCauses := s.haltCauses ++ [.hostInputError]
          result := regAnswer w (s.params.statusUpper ++ 0#1 ++ 1#1) s.draws
          draws := s.draws + regDraws w })

/-- A status read never reports "transmitter busy", reports "data available" exactly when the cell then holds a byte, and is
0x01 or 0x03 when `UART_STATUS_UPPER` is 0 (R133 (b), R138 (e), 95_test_vectors.md S2). -/
def Obligations.StatusBitsMeanWhatTheySay : Prop :=
  ∀ (s t : State) (w : Width) (r : Byte), exec (.uartRdStatus w) s = .next t → t.result.lowByte = some r →
    r.getLsbD 0 = true ∧ (r.getLsbD 1 = true ↔ t.rxCell ≠ .empty) ∧ (s.params.statusUpper = 0 → r = 0x01 ∨ r = 0x03)

/-- `UART.WR.DATA` puts the low byte of the value on the output, `TX_EOL` as `HOST_NL`, and touches nothing else (R134). -/
def Obligations.DataWriteEmitsOneByte : Prop :=
  ∀ (w : Width) (v : Half) (s : State),
    exec (.uartWrData w v) s = .next
      { s with
        out := s.out ++ [if v.extractLsb' 0 8 = 0x8A then Config.hostNl else v.extractLsb' 0 8]
        result := .none }

/-- The UART control and baud-rate addresses are write sinks: one `Accepted` event and nothing else (R135, R136). -/
def Obligations.UartControlWritesOnlyLog : Prop :=
  ∀ (w : Width) (v : Half) (s : State),
    exec (.uartWrCtrl w v) s = .next
      { s with log := s.log ++ [.accepted .uartCtrl s.params.uartCtrl w v], result := .none } ∧
    exec (.uartWrBaud w v) s = .next
      { s with log := s.log ++ [.accepted .uartBaud s.params.uartBaud w v], result := .none }

/-- Two data reads with no host byte between them give the byte, then the fill value (R132 (c), 95_test_vectors.md S5). -/
def Obligations.SecondDataReadFindsNothing : Prop :=
  ∀ (s t u : State) (b : Byte) (w w' : Width), s.rxCell = .holding b → nextAnswer s = .wouldBlock →
    exec (.uartRdData w) s = .next t → exec (.uartRdData w') t = .next u →
      t.result.lowByte = some b ∧ u.result.lowByte = some Config.fill ∧ u.rxCell = .empty

/-- Poll, then read (70_reset_and_hazards.md R215): a status read that shows `RXRDY` has left a byte in the cell, and the data
read after it returns exactly that byte, empties the cell and asks the host for nothing. -/
def Obligations.PollThenReadDelivers : Prop :=
  ∀ (s t : State) (w w' : Width) (r : Byte),
    exec (.uartRdStatus w) s = .next t → t.result.lowByte = some r → r.getLsbD 1 = true →
      ∃ b, t.rxCell = .holding b ∧
        exec (.uartRdData w') t = .next
          { t with rxCell := .empty, result := regAnswer w' b t.draws, draws := t.draws + regDraws w' }

/-- The byte that a data read hands over is the low byte of its result, and when it hands over none the result is `FILL`
(R132, R138 (b)). -/
def Obligations.HandedByteIsTheResult : Prop :=
  ∀ (s t : State) (x : BusInput) (rest : List BusInput) (w : Width),
    s.bus = x :: rest → opOf s.params x = some (.uartRdData w) → s.params.stopAccessServiced = true → step s = .next t →
      (∀ b, handedNext s = [b] → t.result.lowByte = some b) ∧
      (handedNext s = [] → t.result.lowByte = some Config.fill) ∧
      (handedNext s).length ≤ 1

/-- The bytes handed over during a run are, in order, the byte that waited in the cell and then the bytes the host delivered,
with every `RX_LF` replaced by `RX_CR`, less at most one still in the cell: none is lost, repeated or reordered
(R138 (b), 20_memory.md R61 (d)). The run's pulls are those answered by the queue `hostIn` (log 5). -/
def Obligations.HostBytesAreHandedOverInOrder : Prop :=
  ∀ (k : Nat) (s t : State), s.params.stopAccessServiced = true → Host.Core.run Sys2Proof.core k s = .next t →
    t.pulls - s.pulls ≤ s.hostIn.length →
      cellBytes s.rxCell ++ receivedFrom (s.hostIn.take (t.pulls - s.pulls)) = handedDuring k s ++ cellBytes t.rxCell ∧
      t.hostIn = s.hostIn.drop (t.pulls - s.pulls)

/-- `out` grows during a run by exactly the bytes of its data writes, in order (R138 (c), 20_memory.md R61 (c)). -/
def Obligations.OutIsTheDataWritesInOrder : Prop :=
  ∀ (k : Nat) (s t : State), s.params.stopAccessServiced = true → Host.Core.run Sys2Proof.core k s = .next t →
    t.out = s.out ++ emittedByInputs s.params (s.bus.take k)

/-- A run pulls at most once per UART read (R138 (d), 20_memory.md R66). -/
def Obligations.PullsAreAtMostTheUartReads : Prop :=
  ∀ (k : Nat) (s t : State), Host.Core.run Sys2Proof.core k s = .next t →
    s.pulls ≤ t.pulls ∧ t.pulls ≤ s.pulls + ((s.bus.take k).filter (asksUartRead s.params)).length

/-- The cell changes only in a UART read: a status read fills an empty cell with a byte that is not `RX_LF`, and a data read
leaves it empty (10_state.md R21). -/
def Obligations.OnlyUartReadsChangeTheCell : Prop :=
  ∀ s t : State, step s = .next t → t.rxCell ≠ s.rxCell →
    ∃ x rest i, s.bus = x :: rest ∧ opOf s.params x = some i ∧
      ((t.rxCell = .empty ∧ ∃ w, i = .uartRdData w) ∨
       (s.rxCell = .empty ∧ ∃ b w, t.rxCell = .holding b ∧ b ≠ Config.rxLf ∧ i = .uartRdStatus w))

/-- Only a data write changes `out`, and it appends exactly one byte, the one R134 names (10_state.md R24). -/
def Obligations.OnlyDataWritesAppendToOut : Prop :=
  ∀ s t : State, step s = .next t →
    t.out = s.out ∨
    ∃ x rest w v, s.bus = x :: rest ∧ opOf s.params x = some (.uartWrData w v) ∧
      t.out = s.out ++ [if v.extractLsb' 0 8 = 0x8A then Config.hostNl else v.extractLsb' 0 8]

/-! ## The other register models (42_pic.md, 43_timer.md, 44_sense_switch.md) -/

/-- The four interrupt-controller addresses are write sinks: one `Accepted` event under the address's own name, at any value
and width, and nothing else (R150 to R153). That the event holds the value at the access's own width is the model's choice
(log 17, DESIGN CHOICE): R150 (b) leaves it open. -/
def Obligations.PicWritesOnlyLog : Prop :=
  ∀ (w : Width) (v : Half) (s : State),
    exec (.picWrMCmd w v) s = .next
      { s with log := s.log ++ [.accepted .picMCmd s.params.picMCmd w v], result := .none } ∧
    exec (.picWrMData w v) s = .next
      { s with log := s.log ++ [.accepted .picMData s.params.picMData w v], result := .none } ∧
    exec (.picWrSCmd w v) s = .next
      { s with log := s.log ++ [.accepted .picSCmd s.params.picSCmd w v], result := .none } ∧
    exec (.picWrSData w v) s = .next
      { s with log := s.log ++ [.accepted .picSData s.params.picSData w v], result := .none }

/-- The two counter/timer addresses are write sinks (R160, R161). -/
def Obligations.CtcWritesOnlyLog : Prop :=
  ∀ (w : Width) (v : Half) (s : State),
    exec (.ctcWrData w v) s = .next
      { s with log := s.log ++ [.accepted .ctcData s.params.ctcData w v], result := .none } ∧
    exec (.ctcWrCtrl w v) s = .next
      { s with log := s.log ++ [.accepted .ctcCtrl s.params.ctcCtrl w v], result := .none }

/-- A switch read gives 0x1E in every state and touches nothing else; the upper byte of a 16-bit result is a free value
(R170). -/
def Obligations.SwitchReadIsConstant : Prop :=
  ∀ (w : Width) (s : State),
    exec (.swRd w) s = .next { s with result := regAnswer w 0x1E s.draws, draws := s.draws + regDraws w }

/-- Sink writes are invisible but for the log: a run of transactions and boundaries from `Running`, with the sink writes left
out, ends in the same state but for `log` and the last response (10_state.md R30, 95_test_vectors.md P2). -/
def Obligations.SinkWritesAreInvisible : Prop :=
  ∀ s t : State, s.phase = .running → (∀ x ∈ s.bus, ∀ e, x ≠ .event e) →
    Host.Core.run Sys2Proof.core s.bus.length s = .next t →
      ∃ t' : State,
        Host.Core.run Sys2Proof.core (s.bus.filter fun x => !asksSink s.params x).length
          { s with bus := s.bus.filter fun x => !asksSink s.params x } = .next t' ∧
        t' = { t with log := t'.log, result := t'.result }

/-! ## Unhandled accesses and causes (40_dispatch.md, 60_exceptions.md) -/

/-- `IO.RD.UNHANDLED`: the event is logged, the cause raised, `FILL` returned, and nothing else happens (R112). -/
def Obligations.UnhandledReadRaisesAndFills : Prop :=
  ∀ (a : BusAddr) (w : Width) (s : State),
    exec (.ioRdUnhandled a w) s = .next
      { s with
        log := s.log ++ [.unhandled .read a w none]
        haltReq := true, haltCauses := s.haltCauses ++ [.unhandledRead]
        result := regAnswer w 0xFF s.draws, draws := s.draws + regDraws w }

/-- `IO.WR.UNHANDLED`: the event is logged with the value, the cause raised, the value discarded (R113). -/
def Obligations.UnhandledWriteRaises : Prop :=
  ∀ (a : BusAddr) (w : Width) (v : Half) (s : State),
    exec (.ioWrUnhandled a w v) s = .next
      { s with
        log := s.log ++ [.unhandled .write a w (some v)]
        haltReq := true, haltCauses := s.haltCauses ++ [.unhandledWrite]
        result := .none }

/-- What a transaction appends to `halt_causes`: `StopRequested` first, exactly in `StopRequested`, then at most one cause of
its own, which is `UnhandledRead` exactly for an unhandled read, `UnhandledWrite` exactly for an unhandled write, and
`HostInputError` exactly for a UART read of an empty cell that the host answers with an error (R180 to R183, and R191, the
spec's decision D25). -/
def Obligations.CausesOfOneTransaction : Prop :=
  ∀ (s t : State) (x : BusInput) (rest : List BusInput) (i : Instr),
    s.bus = x :: rest → opOf s.params x = some i → s.params.stopAccessServiced = true → step s = .next t →
      ∃ own : List Cause,
        t.haltCauses = s.haltCauses ++ (if s.phase = .stopRequested then [.stopRequested] else []) ++ own ∧
        own.length ≤ 1 ∧ .stopRequested ∉ own ∧
        (.unhandledRead ∈ own ↔ ∃ a w, i = .ioRdUnhandled a w) ∧
        (.unhandledWrite ∈ own ↔ ∃ a w v, i = .ioWrUnhandled a w v) ∧
        (.hostInputError ∈ own ↔ i.isUartRead = true ∧ s.rxCell = .empty ∧ nextAnswer s = .error)

/-- A run stays free of fatal causes exactly as long as it keeps to the enumerated addresses and the host's stream does not
fail (70_reset_and_hazards.md R221, 60_exceptions.md R180 to R184). -/
def Obligations.FatalExactlyOutsideTheMapOrOnHostError : Prop :=
  ∀ (s t : State) (x : BusInput) (rest : List BusInput) (i : Instr),
    s.bus = x :: rest → opOf s.params x = some i → s.params.stopAccessServiced = true → step s = .next t →
      (NothingFatal t ↔
        NothingFatal s ∧ (∀ a w, i ≠ .ioRdUnhandled a w) ∧ (∀ a w v, i ≠ .ioWrUnhandled a w v) ∧
          ¬(i.isUartRead = true ∧ s.rxCell = .empty ∧ nextAnswer s = .error))

/-! ## Memory (40_dispatch.md R116, R117; 20_memory.md R53) -/

/-- `MEM.RD`: the one call `MemRead(addr[19:0], n)` is made, its answer is returned, and nothing else of the block changes
(R116), with either instantiation of the parameter `DefaultMem`. The flat one is the model's choice (log 7): low byte lower,
the second address wrapped, and an unwritten byte a free value (log 8). Of an external memory nothing is assumed (R53,
log 27): the answer is the next one of the queue `memIn`, whatever it is, and a free value when none is queued; only, before
any call has been made, a one-byte read of a byte of the image gives that byte (70_reset_and_hazards.md R211). -/
def Obligations.MemoryReadIsForwarded : Prop :=
  ∀ (a : BusAddr) (s : State),
    let lo := a.toNat % 0x100000
    let hi := (a.toNat + 1) % 0x100000
    let called := fun w => s.memCalls ++ [.read (a.extractLsb' 0 20) w]
    (s.params.memory = .flat →
      exec (.memRd a .w8) s = .next
        { s with
          memCalls := called .w8
          result := .byte (byteOrDraw s.mem lo s.draws), draws := s.draws + drawIfUnwritten s.mem lo } ∧
      exec (.memRd a .w16) s = .next
        { s with
          memCalls := called .w16
          result := .word (byteOrDraw s.mem hi (s.draws + drawIfUnwritten s.mem lo) ++ byteOrDraw s.mem lo s.draws)
          draws := s.draws + drawIfUnwritten s.mem lo + drawIfUnwritten s.mem hi }) ∧
    (s.params.memory = .external →
      (∀ b, s.memCalls = [] → s.mem.read lo = some b →
        exec (.memRd a .w8) s = .next { s with memCalls := called .w8, result := .byte b }) ∧
      (s.memCalls ≠ [] ∨ s.mem.read lo = none →
        (∀ v rest, s.memIn = v :: rest →
          exec (.memRd a .w8) s = .next
            { s with memCalls := called .w8, memIn := rest, result := .byte (v.extractLsb' 0 8) }) ∧
        (s.memIn = [] →
          exec (.memRd a .w8) s = .next
            { s with memCalls := called .w8, result := .byte (Config.freeByte s.draws), draws := s.draws + 1 })) ∧
      (∀ v rest, s.memIn = v :: rest →
        exec (.memRd a .w16) s = .next { s with memCalls := called .w16, memIn := rest, result := .word v }) ∧
      (s.memIn = [] →
        exec (.memRd a .w16) s = .next
          { s with
            memCalls := called .w16
            result := .word (Config.freeByte (s.draws + 1) ++ Config.freeByte s.draws), draws := s.draws + 2 }))

/-- `MEM.WR`: the one call `MemWrite(addr[19:0], n, v)` is made, with value[7:0] at 8 bits and value[15:0] at 16 bits, and
nothing else of the block changes (R117), with either instantiation of the parameter `DefaultMem`. In the flat one, which is
the model's choice (log 7), value[7:0] is then at addr[19:0] and, at 16 bits, value[15:8] one up (wrapped), and every other
address reads as before. An external memory keeps of the call what it will (R53, log 27). -/
def Obligations.MemoryWriteStoresItsBytes : Prop :=
  ∀ (a : BusAddr) (w : Width) (v : Half) (s : State),
    ∃ t, exec (.memWr a w v) s = .next t ∧
      t = { s with
            mem := t.mem
            memCalls :=
              s.memCalls ++ [.write (a.extractLsb' 0 20) w (if w = .w8 then (v.extractLsb' 0 8).setWidth 16 else v)]
            result := .none } ∧
      (s.params.memory = .flat →
        t.mem.read (a.toNat % 0x100000) = some (v.extractLsb' 0 8) ∧
        (w = .w16 → t.mem.read ((a.toNat + 1) % 0x100000) = some (v.extractLsb' 8 8)) ∧
        ∀ x, x ≠ a.toNat % 0x100000 → (w = .w16 → x ≠ (a.toNat + 1) % 0x100000) → t.mem.read x = s.mem.read x) ∧
      (s.params.memory = .external → t.mem = s.mem)

/-- What is stored in the flat memory is read back, at any address and alignment, the image's included. This is wholly the
model's choice of an instantiation of `DefaultMem` (log 7, unsafe): the spec suggests the flat memory, and assumes of
`DefaultMem` neither that a read returns the last value written nor that the image can be written. -/
def Obligations.StoreThenLoadReadsBack : Prop :=
  ∀ (a : BusAddr) (v : Half) (s t u : State), s.params.memory = .flat →
    (exec (.memWr a .w8 v) s = .next t → exec (.memRd a .w8) t = .next u → u.result = .byte (v.extractLsb' 0 8)) ∧
    (exec (.memWr a .w16 v) s = .next t → exec (.memRd a .w16) t = .next u → u.result = .word v)

/-- The forwarded address is addr[19:0]: addresses that agree there are the same address (20_memory.md R60). -/
def Obligations.MemoryAddressesWrap : Prop :=
  ∀ (a a' : BusAddr) (w : Width) (v : Half) (s : State), a.toNat % 0x100000 = a'.toNat % 0x100000 →
    exec (.memRd a w) s = exec (.memRd a' w) s ∧ exec (.memWr a w v) s = exec (.memWr a' w v) s

/-! ## The whole machine -/

/-- The frame of every operation: which ones may touch each part of the state, and that none touches the rest
(10_state.md R21 to R25, R30; 40_dispatch.md R116, R117). -/
def Obligations.OnlyTheNamedOperationsWrite : Prop :=
  ∀ (i : Instr) (s t : State), exec i s = .next t →
    t.phase = s.phase ∧ t.params = s.params ∧ t.bus = s.bus ∧
    (i.isUartRead = false → t.rxCell = s.rxCell ∧ t.hostIn = s.hostIn ∧ t.pulls = s.pulls) ∧
    ((∀ w v, i ≠ .uartWrData w v) → t.out = s.out) ∧
    (i.isSink = false → (∀ a w, i ≠ .ioRdUnhandled a w) → (∀ a w v, i ≠ .ioWrUnhandled a w v) → t.log = s.log) ∧
    (i.isUartRead = false → (∀ a w, i ≠ .ioRdUnhandled a w) → (∀ a w v, i ≠ .ioWrUnhandled a w v) →
      t.haltReq = s.haltReq ∧ t.haltCauses = s.haltCauses) ∧
    ((∀ a w v, i ≠ .memWr a w v) → ∀ x, t.mem.read x = s.mem.read x) ∧
    ((∀ a w, i ≠ .memRd a w) → t.memIn = s.memIn) ∧
    ((∀ a w, i ≠ .memRd a w) → (∀ a w v, i ≠ .memWr a w v) → t.memCalls = s.memCalls) ∧
    (i.readWidth = none → t.result = .none ∧ t.draws = s.draws)

/-- A read answers at its width, and a write answers nothing (30_encoding.md R82). -/
def Obligations.ResponseHasTheWidthOfTheAccess : Prop :=
  ∀ (i : Instr) (s t : State), exec i s = .next t →
    (i.readWidth = some .w8 → ∃ b, t.result = .byte b) ∧
    (i.readWidth = some .w16 → ∃ v, t.result = .word v) ∧
    (i.readWidth = none → t.result = .none)

/-- Along every run the phase moves only forward, `halt_req` is never cleared, the lists of causes, output,
log events and memory calls are only appended to, and the
parameters stay (10_state.md R22 to R25; that `halt_req` is sticky is the spec's decision D11, log 12). -/
def Obligations.RunsOnlyMoveForward : Prop :=
  ∀ (k : Nat) (s t : State), Host.Core.run Sys2Proof.core k s = .next t → Later s t

/-- Whatever the host types, and whatever waits in the cell, the output, the log, memory and the calls made of it are the same
in a run: there is no path from the input stream to the output but the bus master's own writes (20_memory.md R68). -/
def Obligations.HostInputNeverReachesTheOutput : Prop :=
  ∀ (k : Nat) (s t t' : State) (c : RxCell) (h : List HostAnswer) (n : Nat),
    Host.Core.run Sys2Proof.core k s = .next t →
    Host.Core.run Sys2Proof.core k { s with rxCell := c, hostIn := h, pulls := n } = .next t' →
      t'.out = t.out ∧ t'.log = t.log ∧ t'.mem = t.mem ∧ t'.memCalls = t.memCalls

/-- Every step keeps the invariant. -/
def Obligations.EveryStepKeepsTheInvariant : Prop :=
  ∀ s t : State, Inv s → step s = .next t → Inv t

/-- The invariant holds at reset. -/
def Obligations.TheInvariantHoldsAtReset : Prop := Inv State.reset

/-! ## Power-on (70_reset_and_hazards.md, 10_state.md) -/

/-- The power-on values of the block's six components (10_state.md R33 to R35; `rx_cell` is the spec's decision D10). -/
def Obligations.PowerOnStateOfTheBlock : Prop :=
  State.reset.rxCell = .empty ∧ State.reset.phase = .running ∧ State.reset.haltReq = false ∧
    State.reset.haltCauses = [] ∧ State.reset.out = [] ∧ State.reset.log = []

/-- An image of 2048 or 4096 bytes occupies exactly the top of memory in file order, everything below it is unwritten, the
rest of the state is the reset state, and an image of any other size gives no power-on (R211, with the sizes of R210).
`MemRead(TOP_OF_SPACE - size + k, 1)` gives `img[k]` at power-on, with either instantiation of `DefaultMem` (R211). -/
def Obligations.ImageOccupiesTheTopOfMemory : Prop :=
  ∀ (p : Params) (img : List Byte),
    (img.length = 2048 ∨ img.length = 4096 →
      ∃ s, powerOn p img = some s ∧ s = { State.reset with params := p, mem := s.mem } ∧
        (∀ k, k < img.length → s.mem.read (0x100000 - img.length + k) = img[k]?) ∧
        (∀ x, x < 0x100000 - img.length ∨ 0x100000 ≤ x → s.mem.read x = none) ∧
        (∀ (k : Nat) (b : Byte) (a : BusAddr), img[k]? = some b → a.toNat = 0x100000 - img.length + k →
          ∃ t, exec (.memRd a .w8) s = .next t ∧ t.result = .byte b)) ∧
    (img.length ≠ 2048 → img.length ≠ 4096 → powerOn p img = none)

/-- A power-on state under legal parameters meets the invariant. -/
def Obligations.PowerOnMeetsTheInvariant : Prop :=
  ∀ (p : Params) (img : List Byte) (s : State), p.wf = true → powerOn p img = some s → Inv s

/-- The CPU's entry point lies inside the image for both sizes, 16 bytes below the top (R211, R213; its numbers are the
spec's decision D19, log 21). -/
def Obligations.EntryPointLiesInTheImage : Prop :=
  entryPoint = 0xFFFF0 ∧
    ∀ size : RomSize, romBase size ≤ entryPoint.toNat ∧ entryPoint.toNat < Config.topOfSpace
end

