-- ==== Sys2Proof/Laws/Encoding.lean ====
section
/-! SUPPORT. Laws/Encoding.lean: every field of a packed word read back (30_encoding.md R81). -/

namespace Sys2Proof

variable (sp : Space) (d : Dir) (w : Width) (a : BusAddr) (v : Half)

/-- Which field each bit of a packed word belongs to. -/
theorem packFields_bit (i : Nat) :
    (packFields sp d w a v).getLsbD i =
      if i < 16 then v.getLsbD i
      else if i < 48 then a.getLsbD (i - 16)
      else if i < 49 then w.bit.getLsbD (i - 48)
      else if i < 50 then d.bit.getLsbD (i - 49)
      else if i < 51 then sp.bit.getLsbD (i - 50)
      else false := by
  have h : (packFields sp d w a v).getLsbD i = ((0 : BitVec 5) ++ sp.bit ++ d.bit ++ w.bit ++ a ++ v).getLsbD i := rfl
  rw [h]
  simp only [BitVec.getLsbD_append]
  repeat' split
  all_goals first | rfl | omega | exact BitVec.getLsbD_zero

theorem packFields_reserved : (packFields sp d w a v).extractLsb' 51 5 = 0 := by
  apply BitVec.eq_of_getLsbD_eq
  intro i hi
  rw [BitVec.getLsbD_extractLsb', packFields_bit, if_neg (by omega), if_neg (by omega), if_neg (by omega),
    if_neg (by omega), if_neg (by omega)]
  simp

theorem packFields_space : (packFields sp d w a v).extractLsb' 50 1 = sp.bit := by
  apply BitVec.eq_of_getLsbD_eq
  intro i hi
  obtain rfl : i = 0 := by omega
  simp only [BitVec.getLsbD_extractLsb', packFields_bit]
  rfl

theorem packFields_dir : (packFields sp d w a v).extractLsb' 49 1 = d.bit := by
  apply BitVec.eq_of_getLsbD_eq
  intro i hi
  obtain rfl : i = 0 := by omega
  simp only [BitVec.getLsbD_extractLsb', packFields_bit]
  rfl

theorem packFields_width : (packFields sp d w a v).extractLsb' 48 1 = w.bit := by
  apply BitVec.eq_of_getLsbD_eq
  intro i hi
  obtain rfl : i = 0 := by omega
  simp only [BitVec.getLsbD_extractLsb', packFields_bit]
  rfl

theorem packFields_addr : (packFields sp d w a v).extractLsb' 16 32 = a := by
  apply BitVec.eq_of_getLsbD_eq
  intro i hi
  rw [BitVec.getLsbD_extractLsb', packFields_bit, if_neg (by omega), if_pos (by omega)]
  simp [hi]

theorem packFields_value : (packFields sp d w a v).extractLsb' 0 16 = v := by
  apply BitVec.eq_of_getLsbD_eq
  intro i hi
  rw [BitVec.getLsbD_extractLsb', packFields_bit, if_pos (by omega)]
  simp [hi]

@[simp] theorem Space.ofBit_bit : Space.ofBit sp.bit = sp := by cases sp <;> rfl
@[simp] theorem Dir.ofBit_bit : Dir.ofBit d.bit = d := by cases d <;> rfl
@[simp] theorem widthBitsOf_bit : widthBitsOf w.bit = w.bits := by cases w <;> rfl
@[simp] theorem widthOf_bits : widthOf w.bits = some w := by cases w <;> rfl

/-- A packed word spells exactly the tuple of its fields. -/
theorem unpack_packFields :
    unpack (packFields sp d w a v) = .ok { space := sp, dir := d, width := w.bits, addr := a, value := v } := by
  simp [unpack, packFields_reserved, packFields_space, packFields_dir, packFields_width, packFields_addr,
    packFields_value]

theorem decodeTxn_width (p : Params) :
    decodeTxn p { space := sp, dir := d, width := w.bits, addr := a, value := v } =
      .ok (classify p { space := sp, dir := d, width := w.bits, addr := a, value := v } w) := by
  simp [decodeTxn]

/-- A value that fits its width is the canonical spelling of itself. -/
theorem operandValue_of_fits {w : Width} {v : Half} (h : valueFits w v = true) : operandValue w v = v := by
  cases w with
  | w16 => rfl
  | w8 =>
    have h0 : v.extractLsb' 8 8 = 0 := by simpa [valueFits] using h
    unfold operandValue
    ext i hi
    by_cases h8 : i < 8
    · simp [h8, BitVec.getLsbD_eq_getElem hi]
    · have hb := congrArg (fun x : BitVec 8 => x.getLsbD (i - 8)) h0
      have e : 8 + (i - 8) = i := by omega
      simp [e, show i - 8 < 8 by omega] at hb
      rw [BitVec.getLsbD_eq_getElem hi] at hb
      simp [h8, hb]

theorem valueFits_operandValue (w : Width) (v : Half) : valueFits w (operandValue w v) = true := by
  cases w with
  | w16 => rfl
  | w8 =>
    simp only [valueFits, operandValue, beq_iff_eq]
    ext i hi
    simp

end Sys2Proof
end

