-- ==== Sys2Proof/Laws/Memory.lean ====
section
/-! SUPPORT. Laws/Memory.lean: read after write, and that a write keeps the canonical form. -/

namespace Sys2Proof.Machine

@[simp] theorem Memory.read_nil (a : Nat) : Memory.read [] a = none := rfl

theorem Memory.read_cons (k : Nat) (v : Byte) (m : Memory) (a : Nat) :
    Memory.read ((k, v) :: m) a = if a = k then some v else Memory.read m a := rfl

theorem Memory.write_cons (k : Nat) (v : Byte) (m : Memory) (a : Nat) (b : Byte) :
    Memory.write ((k, v) :: m) a b =
      if a < k then (a, b) :: (k, v) :: m else if a = k then (a, b) :: m else (k, v) :: Memory.write m a b := rfl

/-- The whole of what a written byte does to reads. -/
theorem Memory.read_write (m : Memory) (a x : Nat) (b : Byte) :
    (Memory.write m a b).read x = if x = a then some b else m.read x := by
  induction m with
  | nil => rfl
  | cons kv rest ih =>
    obtain ⟨k, v⟩ := kv
    rw [Memory.write_cons]
    split
    · rw [Memory.read_cons]
    · split
      · subst_vars
        rw [Memory.read_cons, Memory.read_cons]
        split <;> rfl
      · rw [Memory.read_cons, Memory.read_cons, ih]
        split
        · subst_vars
          rw [if_neg (by omega)]
        · rfl

@[simp] theorem Memory.read_write_same (m : Memory) (a : Nat) (b : Byte) : (Memory.write m a b).read a = some b := by
  simp [Memory.read_write]

theorem Memory.read_write_other {m : Memory} {a x : Nat} {b : Byte} (h : x ≠ a) :
    (Memory.write m a b).read x = m.read x := by
  simp [Memory.read_write, h]

theorem Memory.risingFrom_write {m : Memory} {lo a : Nat} (b : Byte) (h : Memory.risingFrom lo m = true) (hlo : lo ≤ a)
    (htop : a < Config.topOfSpace) : Memory.risingFrom lo (Memory.write m a b) = true := by
  induction m generalizing lo with
  | nil => simp [Memory.write, Memory.risingFrom, hlo, htop]
  | cons kv rest ih =>
    obtain ⟨k, v⟩ := kv
    simp only [Memory.risingFrom, Bool.and_eq_true, decide_eq_true_eq] at h
    obtain ⟨⟨h1, h2⟩, h3⟩ := h
    rw [Memory.write_cons]
    split
    · simp only [Memory.risingFrom, Bool.and_eq_true, decide_eq_true_eq]
      exact ⟨⟨hlo, htop⟩, ⟨by omega, h2⟩, h3⟩
    · split
      · simp only [Memory.risingFrom, Bool.and_eq_true, decide_eq_true_eq]
        exact ⟨⟨hlo, htop⟩, by rwa [‹a = k›]⟩
      · simp only [Memory.risingFrom, Bool.and_eq_true, decide_eq_true_eq]
        exact ⟨⟨h1, h2⟩, ih h3 (by omega)⟩

/-- A write inside the address space keeps the canonical form. -/
theorem Memory.wf_write {m : Memory} {a : Nat} (b : Byte) (h : m.wf = true) (htop : a < Config.topOfSpace) :
    (Memory.write m a b).wf = true :=
  Memory.risingFrom_write b h (Nat.zero_le a) htop

/-- A block of consecutive bytes lists each of its bytes at its own address, and nothing else. -/
theorem read_cellsFrom (img : List Byte) (base a : Nat) :
    (cellsFrom base img).read a = if base ≤ a then img[a - base]? else none := by
  induction img generalizing base with
  | nil => simp [cellsFrom]
  | cons b rest ih =>
    rw [cellsFrom, Memory.read_cons, ih]
    by_cases h : a = base
    · simp [h]
    · by_cases hle : base ≤ a
      · have e : a - base = (a - (base + 1)) + 1 := by omega
        rw [if_neg h, if_pos hle, if_pos (by omega), e, List.getElem?_cons_succ]
      · rw [if_neg h, if_neg hle, if_neg (by omega)]

theorem risingFrom_cellsFrom (img : List Byte) (base : Nat) (h : base + img.length ≤ Config.topOfSpace) :
    Memory.risingFrom base (cellsFrom base img) = true := by
  induction img generalizing base with
  | nil => rfl
  | cons b rest ih =>
    simp only [List.length_cons] at h
    simp only [cellsFrom, Memory.risingFrom, Bool.and_eq_true, decide_eq_true_eq]
    exact ⟨⟨Nat.le_refl _, by omega⟩, ih (base + 1) (by omega)⟩

theorem Memory.risingFrom_mono {m : Memory} {lo hi : Nat} (h : Memory.risingFrom hi m = true) (hle : lo ≤ hi) :
    Memory.risingFrom lo m = true := by
  cases m with
  | nil => rfl
  | cons kv rest =>
    obtain ⟨k, v⟩ := kv
    simp only [Memory.risingFrom, Bool.and_eq_true, decide_eq_true_eq] at h ⊢
    exact ⟨⟨by omega, h.1.2⟩, h.2⟩

/-- The power-on image is in canonical form. -/
theorem wf_cellsFrom {img : List Byte} {base : Nat} (h : base + img.length ≤ Config.topOfSpace) :
    Memory.wf (cellsFrom base img) = true :=
  Memory.risingFrom_mono (risingFrom_cellsFrom img base h) (Nat.zero_le base)

end Sys2Proof.Machine
end

