-- ==== Sys2Proof/Laws/State.lean ====
section
/-! SUPPORT. Laws/State.lean: one lemma per field per update of Machine/Ops.lean, so that no proof unfolds a record update. -/

namespace Sys2Proof.Machine

variable (s : State)

@[simp] theorem raise_rxCell (c : Cause) : (raise c s).rxCell = s.rxCell := rfl
@[simp] theorem raise_phase (c : Cause) : (raise c s).phase = s.phase := rfl
@[simp] theorem raise_haltReq (c : Cause) : (raise c s).haltReq = true := rfl
@[simp] theorem raise_haltCauses (c : Cause) : (raise c s).haltCauses = s.haltCauses ++ [c] := rfl
@[simp] theorem raise_out (c : Cause) : (raise c s).out = s.out := rfl
@[simp] theorem raise_log (c : Cause) : (raise c s).log = s.log := rfl
@[simp] theorem raise_mem (c : Cause) : (raise c s).mem = s.mem := rfl
@[simp] theorem raise_memCalls (c : Cause) : (raise c s).memCalls = s.memCalls := rfl
@[simp] theorem raise_memIn (c : Cause) : (raise c s).memIn = s.memIn := rfl
@[simp] theorem raise_params (c : Cause) : (raise c s).params = s.params := rfl
@[simp] theorem raise_result (c : Cause) : (raise c s).result = s.result := rfl
@[simp] theorem raise_bus (c : Cause) : (raise c s).bus = s.bus := rfl
@[simp] theorem raise_hostIn (c : Cause) : (raise c s).hostIn = s.hostIn := rfl
@[simp] theorem raise_pulls (c : Cause) : (raise c s).pulls = s.pulls := rfl
@[simp] theorem raise_draws (c : Cause) : (raise c s).draws = s.draws := rfl

@[simp] theorem logEvent_rxCell (e : LogEvent) : (logEvent e s).rxCell = s.rxCell := rfl
@[simp] theorem logEvent_phase (e : LogEvent) : (logEvent e s).phase = s.phase := rfl
@[simp] theorem logEvent_haltReq (e : LogEvent) : (logEvent e s).haltReq = s.haltReq := rfl
@[simp] theorem logEvent_haltCauses (e : LogEvent) : (logEvent e s).haltCauses = s.haltCauses := rfl
@[simp] theorem logEvent_out (e : LogEvent) : (logEvent e s).out = s.out := rfl
@[simp] theorem logEvent_log (e : LogEvent) : (logEvent e s).log = s.log ++ [e] := rfl
@[simp] theorem logEvent_mem (e : LogEvent) : (logEvent e s).mem = s.mem := rfl
@[simp] theorem logEvent_memCalls (e : LogEvent) : (logEvent e s).memCalls = s.memCalls := rfl
@[simp] theorem logEvent_memIn (e : LogEvent) : (logEvent e s).memIn = s.memIn := rfl
@[simp] theorem logEvent_params (e : LogEvent) : (logEvent e s).params = s.params := rfl
@[simp] theorem logEvent_result (e : LogEvent) : (logEvent e s).result = s.result := rfl
@[simp] theorem logEvent_bus (e : LogEvent) : (logEvent e s).bus = s.bus := rfl
@[simp] theorem logEvent_hostIn (e : LogEvent) : (logEvent e s).hostIn = s.hostIn := rfl
@[simp] theorem logEvent_pulls (e : LogEvent) : (logEvent e s).pulls = s.pulls := rfl
@[simp] theorem logEvent_draws (e : LogEvent) : (logEvent e s).draws = s.draws := rfl

@[simp] theorem hostEmit_rxCell (b : Byte) : (hostEmit b s).rxCell = s.rxCell := rfl
@[simp] theorem hostEmit_phase (b : Byte) : (hostEmit b s).phase = s.phase := rfl
@[simp] theorem hostEmit_haltReq (b : Byte) : (hostEmit b s).haltReq = s.haltReq := rfl
@[simp] theorem hostEmit_haltCauses (b : Byte) : (hostEmit b s).haltCauses = s.haltCauses := rfl
@[simp] theorem hostEmit_out (b : Byte) : (hostEmit b s).out = s.out ++ [b] := rfl
@[simp] theorem hostEmit_log (b : Byte) : (hostEmit b s).log = s.log := rfl
@[simp] theorem hostEmit_mem (b : Byte) : (hostEmit b s).mem = s.mem := rfl
@[simp] theorem hostEmit_memCalls (b : Byte) : (hostEmit b s).memCalls = s.memCalls := rfl
@[simp] theorem hostEmit_memIn (b : Byte) : (hostEmit b s).memIn = s.memIn := rfl
@[simp] theorem hostEmit_params (b : Byte) : (hostEmit b s).params = s.params := rfl
@[simp] theorem hostEmit_result (b : Byte) : (hostEmit b s).result = s.result := rfl
@[simp] theorem hostEmit_bus (b : Byte) : (hostEmit b s).bus = s.bus := rfl
@[simp] theorem hostEmit_hostIn (b : Byte) : (hostEmit b s).hostIn = s.hostIn := rfl
@[simp] theorem hostEmit_pulls (b : Byte) : (hostEmit b s).pulls = s.pulls := rfl
@[simp] theorem hostEmit_draws (b : Byte) : (hostEmit b s).draws = s.draws := rfl

@[simp] theorem setCell_rxCell (c : RxCell) : (setCell c s).rxCell = c := rfl
@[simp] theorem setCell_phase (c : RxCell) : (setCell c s).phase = s.phase := rfl
@[simp] theorem setCell_haltReq (c : RxCell) : (setCell c s).haltReq = s.haltReq := rfl
@[simp] theorem setCell_haltCauses (c : RxCell) : (setCell c s).haltCauses = s.haltCauses := rfl
@[simp] theorem setCell_out (c : RxCell) : (setCell c s).out = s.out := rfl
@[simp] theorem setCell_log (c : RxCell) : (setCell c s).log = s.log := rfl
@[simp] theorem setCell_mem (c : RxCell) : (setCell c s).mem = s.mem := rfl
@[simp] theorem setCell_memCalls (c : RxCell) : (setCell c s).memCalls = s.memCalls := rfl
@[simp] theorem setCell_memIn (c : RxCell) : (setCell c s).memIn = s.memIn := rfl
@[simp] theorem setCell_params (c : RxCell) : (setCell c s).params = s.params := rfl
@[simp] theorem setCell_result (c : RxCell) : (setCell c s).result = s.result := rfl
@[simp] theorem setCell_bus (c : RxCell) : (setCell c s).bus = s.bus := rfl
@[simp] theorem setCell_hostIn (c : RxCell) : (setCell c s).hostIn = s.hostIn := rfl
@[simp] theorem setCell_pulls (c : RxCell) : (setCell c s).pulls = s.pulls := rfl
@[simp] theorem setCell_draws (c : RxCell) : (setCell c s).draws = s.draws := rfl

@[simp] theorem setPhase_rxCell (p : Phase) : (setPhase p s).rxCell = s.rxCell := rfl
@[simp] theorem setPhase_phase (p : Phase) : (setPhase p s).phase = p := rfl
@[simp] theorem setPhase_haltReq (p : Phase) : (setPhase p s).haltReq = s.haltReq := rfl
@[simp] theorem setPhase_haltCauses (p : Phase) : (setPhase p s).haltCauses = s.haltCauses := rfl
@[simp] theorem setPhase_out (p : Phase) : (setPhase p s).out = s.out := rfl
@[simp] theorem setPhase_log (p : Phase) : (setPhase p s).log = s.log := rfl
@[simp] theorem setPhase_mem (p : Phase) : (setPhase p s).mem = s.mem := rfl
@[simp] theorem setPhase_memCalls (p : Phase) : (setPhase p s).memCalls = s.memCalls := rfl
@[simp] theorem setPhase_memIn (p : Phase) : (setPhase p s).memIn = s.memIn := rfl
@[simp] theorem setPhase_params (p : Phase) : (setPhase p s).params = s.params := rfl
@[simp] theorem setPhase_result (p : Phase) : (setPhase p s).result = s.result := rfl
@[simp] theorem setPhase_bus (p : Phase) : (setPhase p s).bus = s.bus := rfl
@[simp] theorem setPhase_hostIn (p : Phase) : (setPhase p s).hostIn = s.hostIn := rfl
@[simp] theorem setPhase_pulls (p : Phase) : (setPhase p s).pulls = s.pulls := rfl
@[simp] theorem setPhase_draws (p : Phase) : (setPhase p s).draws = s.draws := rfl

@[simp] theorem respond_rxCell (r : Response) : (respond r s).rxCell = s.rxCell := rfl
@[simp] theorem respond_phase (r : Response) : (respond r s).phase = s.phase := rfl
@[simp] theorem respond_haltReq (r : Response) : (respond r s).haltReq = s.haltReq := rfl
@[simp] theorem respond_haltCauses (r : Response) : (respond r s).haltCauses = s.haltCauses := rfl
@[simp] theorem respond_out (r : Response) : (respond r s).out = s.out := rfl
@[simp] theorem respond_log (r : Response) : (respond r s).log = s.log := rfl
@[simp] theorem respond_mem (r : Response) : (respond r s).mem = s.mem := rfl
@[simp] theorem respond_memCalls (r : Response) : (respond r s).memCalls = s.memCalls := rfl
@[simp] theorem respond_memIn (r : Response) : (respond r s).memIn = s.memIn := rfl
@[simp] theorem respond_params (r : Response) : (respond r s).params = s.params := rfl
@[simp] theorem respond_result (r : Response) : (respond r s).result = r := rfl
@[simp] theorem respond_bus (r : Response) : (respond r s).bus = s.bus := rfl
@[simp] theorem respond_hostIn (r : Response) : (respond r s).hostIn = s.hostIn := rfl
@[simp] theorem respond_pulls (r : Response) : (respond r s).pulls = s.pulls := rfl
@[simp] theorem respond_draws (r : Response) : (respond r s).draws = s.draws := rfl

@[simp] theorem drawUsed_rxCell : (drawUsed s).rxCell = s.rxCell := rfl
@[simp] theorem drawUsed_phase : (drawUsed s).phase = s.phase := rfl
@[simp] theorem drawUsed_haltReq : (drawUsed s).haltReq = s.haltReq := rfl
@[simp] theorem drawUsed_haltCauses : (drawUsed s).haltCauses = s.haltCauses := rfl
@[simp] theorem drawUsed_out : (drawUsed s).out = s.out := rfl
@[simp] theorem drawUsed_log : (drawUsed s).log = s.log := rfl
@[simp] theorem drawUsed_mem : (drawUsed s).mem = s.mem := rfl
@[simp] theorem drawUsed_memCalls : (drawUsed s).memCalls = s.memCalls := rfl
@[simp] theorem drawUsed_memIn : (drawUsed s).memIn = s.memIn := rfl
@[simp] theorem drawUsed_params : (drawUsed s).params = s.params := rfl
@[simp] theorem drawUsed_result : (drawUsed s).result = s.result := rfl
@[simp] theorem drawUsed_bus : (drawUsed s).bus = s.bus := rfl
@[simp] theorem drawUsed_hostIn : (drawUsed s).hostIn = s.hostIn := rfl
@[simp] theorem drawUsed_pulls : (drawUsed s).pulls = s.pulls := rfl
@[simp] theorem drawUsed_draws : (drawUsed s).draws = s.draws + 1 := rfl

@[simp] theorem pullUsed_rxCell : (pullUsed s).rxCell = s.rxCell := rfl
@[simp] theorem pullUsed_phase : (pullUsed s).phase = s.phase := rfl
@[simp] theorem pullUsed_haltReq : (pullUsed s).haltReq = s.haltReq := rfl
@[simp] theorem pullUsed_haltCauses : (pullUsed s).haltCauses = s.haltCauses := rfl
@[simp] theorem pullUsed_out : (pullUsed s).out = s.out := rfl
@[simp] theorem pullUsed_log : (pullUsed s).log = s.log := rfl
@[simp] theorem pullUsed_mem : (pullUsed s).mem = s.mem := rfl
@[simp] theorem pullUsed_memCalls : (pullUsed s).memCalls = s.memCalls := rfl
@[simp] theorem pullUsed_memIn : (pullUsed s).memIn = s.memIn := rfl
@[simp] theorem pullUsed_params : (pullUsed s).params = s.params := rfl
@[simp] theorem pullUsed_result : (pullUsed s).result = s.result := rfl
@[simp] theorem pullUsed_bus : (pullUsed s).bus = s.bus := rfl
@[simp] theorem pullUsed_hostIn : (pullUsed s).hostIn = s.hostIn.tail := rfl
@[simp] theorem pullUsed_pulls : (pullUsed s).pulls = s.pulls + 1 := rfl
@[simp] theorem pullUsed_draws : (pullUsed s).draws = s.draws := rfl

@[simp] theorem busTaken_rxCell : (busTaken s).rxCell = s.rxCell := rfl
@[simp] theorem busTaken_phase : (busTaken s).phase = s.phase := rfl
@[simp] theorem busTaken_haltReq : (busTaken s).haltReq = s.haltReq := rfl
@[simp] theorem busTaken_haltCauses : (busTaken s).haltCauses = s.haltCauses := rfl
@[simp] theorem busTaken_out : (busTaken s).out = s.out := rfl
@[simp] theorem busTaken_log : (busTaken s).log = s.log := rfl
@[simp] theorem busTaken_mem : (busTaken s).mem = s.mem := rfl
@[simp] theorem busTaken_memCalls : (busTaken s).memCalls = s.memCalls := rfl
@[simp] theorem busTaken_memIn : (busTaken s).memIn = s.memIn := rfl
@[simp] theorem busTaken_params : (busTaken s).params = s.params := rfl
@[simp] theorem busTaken_result : (busTaken s).result = s.result := rfl
@[simp] theorem busTaken_bus : (busTaken s).bus = s.bus.tail := rfl
@[simp] theorem busTaken_hostIn : (busTaken s).hostIn = s.hostIn := rfl
@[simp] theorem busTaken_pulls : (busTaken s).pulls = s.pulls := rfl
@[simp] theorem busTaken_draws : (busTaken s).draws = s.draws := rfl

@[simp] theorem callMem_rxCell (c : MemCall) : (callMem c s).rxCell = s.rxCell := rfl
@[simp] theorem callMem_phase (c : MemCall) : (callMem c s).phase = s.phase := rfl
@[simp] theorem callMem_haltReq (c : MemCall) : (callMem c s).haltReq = s.haltReq := rfl
@[simp] theorem callMem_haltCauses (c : MemCall) : (callMem c s).haltCauses = s.haltCauses := rfl
@[simp] theorem callMem_out (c : MemCall) : (callMem c s).out = s.out := rfl
@[simp] theorem callMem_log (c : MemCall) : (callMem c s).log = s.log := rfl
@[simp] theorem callMem_mem (c : MemCall) : (callMem c s).mem = s.mem := rfl
@[simp] theorem callMem_memCalls (c : MemCall) : (callMem c s).memCalls = s.memCalls ++ [c] := rfl
@[simp] theorem callMem_memIn (c : MemCall) : (callMem c s).memIn = s.memIn := rfl
@[simp] theorem callMem_params (c : MemCall) : (callMem c s).params = s.params := rfl
@[simp] theorem callMem_result (c : MemCall) : (callMem c s).result = s.result := rfl
@[simp] theorem callMem_bus (c : MemCall) : (callMem c s).bus = s.bus := rfl
@[simp] theorem callMem_hostIn (c : MemCall) : (callMem c s).hostIn = s.hostIn := rfl
@[simp] theorem callMem_pulls (c : MemCall) : (callMem c s).pulls = s.pulls := rfl
@[simp] theorem callMem_draws (c : MemCall) : (callMem c s).draws = s.draws := rfl

@[simp] theorem putMem_rxCell (a : MemAddr) (b : Byte) : (putMem a b s).rxCell = s.rxCell := rfl
@[simp] theorem putMem_phase (a : MemAddr) (b : Byte) : (putMem a b s).phase = s.phase := rfl
@[simp] theorem putMem_haltReq (a : MemAddr) (b : Byte) : (putMem a b s).haltReq = s.haltReq := rfl
@[simp] theorem putMem_haltCauses (a : MemAddr) (b : Byte) : (putMem a b s).haltCauses = s.haltCauses := rfl
@[simp] theorem putMem_out (a : MemAddr) (b : Byte) : (putMem a b s).out = s.out := rfl
@[simp] theorem putMem_log (a : MemAddr) (b : Byte) : (putMem a b s).log = s.log := rfl
@[simp] theorem putMem_mem (a : MemAddr) (b : Byte) : (putMem a b s).mem = s.mem.write a.toNat b := rfl
@[simp] theorem putMem_memCalls (a : MemAddr) (b : Byte) : (putMem a b s).memCalls = s.memCalls := rfl
@[simp] theorem putMem_memIn (a : MemAddr) (b : Byte) : (putMem a b s).memIn = s.memIn := rfl
@[simp] theorem putMem_params (a : MemAddr) (b : Byte) : (putMem a b s).params = s.params := rfl
@[simp] theorem putMem_result (a : MemAddr) (b : Byte) : (putMem a b s).result = s.result := rfl
@[simp] theorem putMem_bus (a : MemAddr) (b : Byte) : (putMem a b s).bus = s.bus := rfl
@[simp] theorem putMem_hostIn (a : MemAddr) (b : Byte) : (putMem a b s).hostIn = s.hostIn := rfl
@[simp] theorem putMem_pulls (a : MemAddr) (b : Byte) : (putMem a b s).pulls = s.pulls := rfl
@[simp] theorem putMem_draws (a : MemAddr) (b : Byte) : (putMem a b s).draws = s.draws := rfl

end Sys2Proof.Machine
end

