-- ==== Sys2Proof/Laws/Ops.lean ====
section
/-! SUPPORT. Laws/Ops.lean: one lemma per shared operation that says everything it can do. -/

namespace Sys2Proof.Machine

/-- Everything `TRYRX` can do (41_uart.md R131). -/
theorem tryRx_cases (s : State) :
    (∃ b, s.rxCell = .holding b ∧ tryRx s = s) ∨
    (∃ b, s.rxCell = .empty ∧ nextAnswer s = .byte b ∧ tryRx s = setCell (.holding (rxTranslate b)) (pullUsed s)) ∨
    (s.rxCell = .empty ∧ nextAnswer s = .wouldBlock ∧ tryRx s = pullUsed s) ∨
    (s.rxCell = .empty ∧ nextAnswer s = .error ∧ tryRx s = raise .hostInputError (pullUsed s)) := by
  unfold tryRx
  cases hc : s.rxCell with
  | holding b => exact .inl ⟨b, rfl, rfl⟩
  | empty =>
    cases ha : nextAnswer s with
    | byte b => exact .inr (.inl ⟨b, rfl, rfl, rfl⟩)
    | wouldBlock => exact .inr (.inr (.inl ⟨rfl, rfl, rfl⟩))
    | error => exact .inr (.inr (.inr ⟨rfl, rfl, rfl⟩))

theorem tryRx_holding {s : State} {b : Byte} (h : s.rxCell = .holding b) : tryRx s = s := by
  simp [tryRx, h]

theorem tryRx_byte {s : State} {b : Byte} (h : s.rxCell = .empty) (ha : nextAnswer s = .byte b) :
    tryRx s = setCell (.holding (rxTranslate b)) (pullUsed s) := by
  simp [tryRx, h, ha]

theorem tryRx_wouldBlock {s : State} (h : s.rxCell = .empty) (ha : nextAnswer s = .wouldBlock) : tryRx s = pullUsed s := by
  simp [tryRx, h, ha]

theorem tryRx_error {s : State} (h : s.rxCell = .empty) (ha : nextAnswer s = .error) :
    tryRx s = raise .hostInputError (pullUsed s) := by
  simp [tryRx, h, ha]

/-- What `TRYRX` leaves alone in every case. -/
theorem tryRx_frame (s : State) :
    (tryRx s).phase = s.phase ∧ (tryRx s).out = s.out ∧ (tryRx s).log = s.log ∧ (tryRx s).mem = s.mem ∧
      (tryRx s).params = s.params ∧ (tryRx s).result = s.result ∧ (tryRx s).bus = s.bus ∧ (tryRx s).draws = s.draws ∧
      (tryRx s).memCalls = s.memCalls ∧ (tryRx s).memIn = s.memIn := by
  obtain ⟨b, -, h⟩ | ⟨b, -, -, h⟩ | ⟨-, -, h⟩ | ⟨-, -, h⟩ := tryRx_cases s <;> simp [h]

/-- The substitution never gives `RX_LF` (41_uart.md R131). -/
theorem rxTranslate_ne_lf (b : Byte) : rxTranslate b ≠ Config.rxLf := by
  unfold rxTranslate
  split
  · decide
  · assumption

/-- Everything `STOPCHK` can do (40_dispatch.md R111). -/
theorem stopChk_cases (s : State) :
    (s.phase = .stopRequested ∧ stopChk s = raise .stopRequested s) ∨ (s.phase ≠ .stopRequested ∧ stopChk s = s) := by
  unfold stopChk
  cases h : s.phase <;> simp

theorem stopChk_running {s : State} (h : s.phase = .running) : stopChk s = s := by
  simp [stopChk, h]

theorem stopChk_stopRequested {s : State} (h : s.phase = .stopRequested) : stopChk s = raise .stopRequested s := by
  simp [stopChk, h]

/-- A register read changes the result and, at 16 bits, the number of draws. -/
theorem respondRegister_eq (w : Width) (r : Byte) (s : State) :
    respondRegister w r s = { s with result := regAnswer w r s.draws, draws := s.draws + regDraws w } := by
  cases w <;> rfl

/-- The low byte of a register read's result is the register's byte at both widths (20_memory.md R54). -/
theorem lowByte_regAnswer (w : Width) (r : Byte) (d : Nat) : (regAnswer w r d).lowByte = some r := by
  cases w with
  | w8 => rfl
  | w16 =>
    simp only [regAnswer, Response.lowByte, Option.some.injEq]
    apply BitVec.eq_of_getLsbD_eq
    intro i hi
    rw [BitVec.getLsbD_extractLsb', Nat.zero_add, BitVec.getLsbD_append, if_pos hi]
    simp [hi]

/-- A write to a sink changes the log and the response only (10_state.md R30). -/
theorem sinkWrite_eq (name : SinkName) (a : BusAddr) (w : Width) (v : Half) (s : State) :
    sinkWrite name a w v s = { s with log := s.log ++ [.accepted name a w v], result := .none } := rfl

theorem memByte_eq (a : MemAddr) (s : State) : memByte a s = byteOrDraw s.mem a.toNat s.draws := by
  unfold memByte byteOrDraw
  cases s.mem.read a.toNat <;> rfl

theorem memByteRead_eq (a : MemAddr) (s : State) :
    memByteRead a s = { s with draws := s.draws + drawIfUnwritten s.mem a.toNat } := by
  unfold memByteRead drawIfUnwritten
  cases s.mem.read a.toNat <;> rfl

/-- One byte read from memory uses a draw exactly when it is unwritten. -/
theorem memByteRead_cases (a : MemAddr) (s : State) :
    (∃ b, s.mem.read a.toNat = some b ∧ memByte a s = b ∧ memByteRead a s = s) ∨
    (s.mem.read a.toNat = none ∧ memByte a s = drawnByte s ∧ memByteRead a s = drawUsed s) := by
  unfold memByte memByteRead
  cases h : s.mem.read a.toNat with
  | some b => exact .inl ⟨b, rfl, rfl, rfl⟩
  | none => exact .inr ⟨rfl, rfl, rfl⟩

/-- A byte carried in 16 bits is its low byte. -/
@[simp] theorem extractLsb'_setWidth_byte (b : Byte) : (b.setWidth 16).extractLsb' 0 8 = b := by
  apply BitVec.eq_of_getLsbD_eq
  intro i hi
  simp [hi, show i < 16 by omega]

/-- The flat memory's one-byte read, whole. -/
theorem respondFlat_w8 (a : MemAddr) (s : State) :
    respondFlat .w8 a s =
      { s with
        result := .byte (byteOrDraw s.mem a.toNat s.draws)
        draws := s.draws + drawIfUnwritten s.mem a.toNat } := by
  rw [respondFlat, memByte_eq, memByteRead_eq]
  rfl

/-- The flat memory's two-byte read, whole. -/
theorem respondFlat_w16 (a : MemAddr) (s : State) :
    respondFlat .w16 a s =
      { s with
        result := .word
          (byteOrDraw s.mem (a + 1).toNat (s.draws + drawIfUnwritten s.mem a.toNat) ++ byteOrDraw s.mem a.toNat s.draws)
        draws := s.draws + drawIfUnwritten s.mem a.toNat + drawIfUnwritten s.mem (a + 1).toNat } := by
  simp only [respondFlat, memByte_eq, memByteRead_eq, respond]

/-- Everything an external memory's answer can be (20_memory.md R53, 70_reset_and_hazards.md R211). -/
theorem externalAnswer_cases (w : Width) (a : MemAddr) (s : State) :
    (∃ b, imageByte w a s = some b ∧ externalAnswer w a s = b.setWidth 16 ∧ externalAnswered w a s = s) ∨
    (∃ v rest, imageByte w a s = none ∧ s.memIn = v :: rest ∧ externalAnswer w a s = v ∧
      externalAnswered w a s = { s with memIn := rest }) ∨
    (imageByte w a s = none ∧ s.memIn = [] ∧ externalAnswer w a s = drawnAnswer w s ∧
      externalAnswered w a s = drawsUsed w s) := by
  unfold externalAnswer externalAnswered
  cases imageByte w a s with
  | some b => exact .inl ⟨b, rfl, rfl, rfl⟩
  | none =>
    cases s.memIn with
    | cons v rest => exact .inr (.inl ⟨v, rest, rfl, rfl, rfl, rfl⟩)
    | nil => exact .inr (.inr ⟨rfl, rfl, rfl, rfl⟩)

/-- The image's byte is found only by a one-byte read before any call. -/
theorem imageByte_eq_none {w : Width} {a : MemAddr} {s : State}
    (h : w = .w16 ∨ s.memCalls ≠ [] ∨ s.mem.read a.toNat = none) : imageByte w a s = none := by
  cases w with
  | w16 => rfl
  | w8 => cases hc : s.memCalls <;> simp_all [imageByte]

/-- At power-on a listed byte is what a one-byte read answers, whichever memory it is (70_reset_and_hazards.md R211). -/
theorem imageByte_powerOn {a : MemAddr} {s : State} (h : s.memCalls = []) :
    imageByte .w8 a s = s.mem.read a.toNat := by
  simp [imageByte, h]

theorem respondMemory_flat {s : State} (w : Width) (a : MemAddr) (h : s.params.memory = .flat) :
    respondMemory w a s = callMem (.read a w) (respondFlat w a s) := by
  simp [respondMemory, answerRead, h]

theorem respondMemory_external {s : State} (w : Width) (a : MemAddr) (h : s.params.memory = .external) :
    respondMemory w a s = callMem (.read a w) (respondExternal w a s) := by
  simp [respondMemory, answerRead, h]

/-- An external memory's queued answer is the response, with the image's byte out of the way. -/
theorem respondMemory_queued {w : Width} {a : MemAddr} {s : State} {v : Half} {rest : List Half}
    (hm : s.params.memory = .external) (hi : imageByte w a s = none) (hq : s.memIn = v :: rest) :
    respondMemory w a s =
      { s with memCalls := s.memCalls ++ [.read a w], memIn := rest, result := memoryResponse w v } := by
  rw [respondMemory_external w a hm, respondExternal, externalAnswer, externalAnswered, hi, hq]
  rfl

/-- An external memory without a queued answer gives draws. -/
theorem respondMemory_drawn {w : Width} {a : MemAddr} {s : State} (hm : s.params.memory = .external)
    (hi : imageByte w a s = none) (hq : s.memIn = []) :
    respondMemory w a s =
      callMem (.read a w) (respond (memoryResponse w (drawnAnswer w s)) (drawsUsed w s)) := by
  rw [respondMemory_external w a hm, respondExternal, externalAnswer, externalAnswered, hi, hq]

/-- The image's byte is the response of the first one-byte read (70_reset_and_hazards.md R211). -/
theorem respondMemory_image {w : Width} {a : MemAddr} {s : State} {b : Byte} (hm : s.params.memory = .external)
    (hi : imageByte w a s = some b) :
    respondMemory w a s =
      { s with memCalls := s.memCalls ++ [.read a w], result := memoryResponse w (b.setWidth 16) } := by
  rw [respondMemory_external w a hm, respondExternal, externalAnswer, externalAnswered, hi]
  rfl

/-- A memory read, of either memory, records its call and leaves everything but the result, the draws and the queued
answers. -/
theorem respondMemory_frame (w : Width) (a : MemAddr) (s : State) :
    ∃ r d q, respondMemory w a s =
      { s with memCalls := s.memCalls ++ [.read a w], result := r, draws := d, memIn := q } := by
  cases hm : s.params.memory with
  | flat =>
    rw [respondMemory_flat w a hm]
    cases w with
    | w8 => rw [respondFlat_w8]; exact ⟨_, _, _, rfl⟩
    | w16 => rw [respondFlat_w16]; exact ⟨_, _, _, rfl⟩
  | external =>
    rw [respondMemory_external w a hm, respondExternal]
    obtain ⟨b, -, -, h⟩ | ⟨v, rest, -, -, -, h⟩ | ⟨-, -, -, h⟩ := externalAnswer_cases w a s <;> rw [h]
    · exact ⟨_, _, _, rfl⟩
    · exact ⟨_, _, _, rfl⟩
    · cases w <;> exact ⟨_, _, _, rfl⟩

/-- The forwarded address is addr[19:0] (20_memory.md R60). -/
theorem forwardAddr_toNat (a : BusAddr) : (forwardAddr a).toNat = a.toNat % 2 ^ 20 := by
  have hm : Config.memMask.toNat = 2 ^ 20 - 1 := by decide
  rw [forwardAddr, BitVec.toNat_setWidth, BitVec.toNat_and, hm, Nat.and_two_pow_sub_one_eq_mod, Nat.mod_mod]

theorem forwardAddr_eq (a : BusAddr) : forwardAddr a = a.extractLsb' 0 20 := by
  apply BitVec.eq_of_toNat_eq
  rw [forwardAddr_toNat, BitVec.extractLsb'_toNat, Nat.shiftRight_zero]

theorem memAddr_lt_top (a : MemAddr) : a.toNat < Config.topOfSpace := a.isLt

/-- The second byte of a word lies one up, wrapped into 20 bits. -/
theorem memAddr_succ_toNat (a : MemAddr) : (a + 1).toNat = (a.toNat + 1) % 2 ^ 20 :=
  BitVec.toNat_add a 1

theorem forwardAddr_succ_toNat (a : BusAddr) : (forwardAddr a + 1).toNat = (a.toNat + 1) % 2 ^ 20 := by
  rw [memAddr_succ_toNat, forwardAddr_toNat, Nat.mod_add_mod]

/-- The two bytes of a word lie at different addresses. -/
theorem memAddr_succ_ne (a : MemAddr) : (a + 1).toNat ≠ a.toNat := by
  have := a.isLt
  rw [memAddr_succ_toNat]
  omega

/-- A store of the flat memory changes memory only. -/
theorem storeFlat_eq (w : Width) (a : MemAddr) (v : Half) (s : State) :
    storeFlat w a v s = { s with mem := (storeFlat w a v s).mem } := by
  cases w <;> rfl

theorem storeMemory_flat {s : State} (w : Width) (a : MemAddr) (v : Half) (h : s.params.memory = .flat) :
    storeMemory w a v s = callMem (.write a w (operandValue w v)) (storeFlat w a v s) := by
  simp [storeMemory, answerWrite, h]

theorem storeMemory_external {s : State} (w : Width) (a : MemAddr) (v : Half) (h : s.params.memory = .external) :
    storeMemory w a v s = callMem (.write a w (operandValue w v)) s := by
  simp [storeMemory, answerWrite, h]

/-- A store records its call and changes memory only. -/
theorem storeMemory_eq (w : Width) (a : MemAddr) (v : Half) (s : State) :
    storeMemory w a v s =
      { s with
        memCalls := s.memCalls ++ [.write a w (operandValue w v)]
        mem := (storeMemory w a v s).mem } := by
  cases hm : s.params.memory with
  | flat =>
    rw [storeMemory_flat w a v hm, storeFlat_eq]
    rfl
  | external =>
    rw [storeMemory_external w a v hm]
    rfl

/-- Everything `ACCESS` can answer (40_dispatch.md R110). -/
theorem access_cases (d : Except Reject Instr) (s : State) :
    (s.phase = .terminated ∧ access d s = .fault .runOver) ∨
    (s.phase ≠ .terminated ∧ ∃ r, d = .error r ∧ access d s = .refused (refusalOf r)) ∨
    (s.phase = .stopRequested ∧ s.params.stopAccessServiced = false ∧
      ∃ i, d = .ok i ∧ access d s = .next (respondUnserviced i (stopChk s))) ∨
    (s.phase ≠ .terminated ∧ (s.phase = .stopRequested → s.params.stopAccessServiced = true) ∧
      ∃ i, d = .ok i ∧ access d s = exec i (stopChk s)) := by
  cases hp : s.phase <;> cases d <;> cases hs : s.params.stopAccessServiced <;> simp [access, returnsEarly, hp, hs]

/-- An event that is taken changes the phase only, and forward. -/
theorem takeEvent_next {e : Event} {s t : State} (h : takeEvent e s = .next t) :
    ∃ p, t = setPhase p s ∧ s.phase.rank < p.rank := by
  cases e <;> cases hp : s.phase <;> simp [takeEvent, hp] at h <;> subst h <;> exact ⟨_, rfl, by decide⟩

/-- A boundary that is passed changes at most the phase, and only with `halt_req` set (60_exceptions.md R186). -/
theorem atBoundary_next {s t : State} (h : atBoundary s = .next t) :
    s.phase ≠ .terminated ∧
      ((s.haltReq = true ∧ t = setPhase .terminated s) ∨ (s.haltReq = false ∧ t = s)) := by
  cases hp : s.phase <;> cases hh : s.haltReq <;> simp [atBoundary, takeEvent, hp, hh] at h <;> subst h <;> simp

end Sys2Proof.Machine
end

