-- ==== Sys2Proof/Laws/Run.lean ====
section
/-! SUPPORT. Laws/Run.lean: a run of the machine one step at a time, and everything one step can do. -/

namespace Sys2Proof.Machine

@[simp] theorem run_zero (s : State) : Host.Core.run Sys2Proof.core 0 s = .next s := rfl

theorem run_succ (k : Nat) (s : State) :
    Host.Core.run Sys2Proof.core (k + 1) s =
      (match step s with
       | .next t => Host.Core.run Sys2Proof.core k t
       | .fault r => .fault r
       | .refused r => .refused r) := by
  have e := Host.Core.run.eq_2 Sys2Proof.core s k
  have hs : Sys2Proof.core.step s = step s := rfl
  rw [hs] at e
  cases h : step s with
  | next t => rw [h] at e; exact e
  | fault r => rw [h] at e; exact e
  | refused r => rw [h] at e; exact e

/-- A longer run is a step and then a run. -/
theorem run_succ_next {k : Nat} {s t : State} (h : Host.Core.run Sys2Proof.core (k + 1) s = .next t) :
    ∃ u, step s = .next u ∧ Host.Core.run Sys2Proof.core k u = .next t := by
  rw [run_succ] at h
  cases hs : step s with
  | next u => rw [hs] at h; exact ⟨u, rfl, h⟩
  | fault r => rw [hs] at h; cases h
  | refused r => rw [hs] at h; cases h

theorem run_of_step {k : Nat} {s u : State} (h : step s = .next u) :
    Host.Core.run Sys2Proof.core (k + 1) s = Host.Core.run Sys2Proof.core k u := by
  rw [run_succ, h]

/-- A step with an input takes it. -/
theorem step_cons {s : State} {x : BusInput} {rest : List BusInput} (h : s.bus = x :: rest) :
    step s = takeInput x { s with bus := rest } := by
  simp [step, takeNext, busTaken, h]

theorem step_nil {s : State} (h : s.bus = []) : step s = .next s := by
  simp [step, takeNext, h]

/-- A transaction is an access to what it decodes to. -/
theorem takeInput_access {s : State} {x : BusInput} {d : Except Reject Instr} (h : decodeInput s.params x = some d) :
    takeInput x s = access d s := by
  cases x <;> simp [decodeInput] at h <;> simp [takeInput, h]

/-- In `Running` a step performs the operation its input decodes to. -/
theorem step_running {s : State} {x : BusInput} {rest : List BusInput} {i : Instr} (hb : s.bus = x :: rest)
    (hd : decodeInput s.params x = some (.ok i)) (hp : s.phase = .running) : step s = exec i { s with bus := rest } := by
  rw [step_cons hb, takeInput_access (s := { s with bus := rest }) hd]
  simp [access, hp, returnsEarly, stopChk]

/-- Everything a step that answers a next state can have done. -/
theorem step_next_cases {s t : State} (h : step s = .next t) :
    (s.bus = [] ∧ t = s) ∨
    (∃ e rest, s.bus = .event e :: rest ∧ takeEvent e { s with bus := rest } = .next t) ∨
    (∃ rest, s.bus = .boundary :: rest ∧ atBoundary { s with bus := rest } = .next t) ∨
    (∃ x rest i, s.bus = x :: rest ∧ decodeInput s.params x = some (.ok i) ∧ s.phase = .stopRequested ∧
      s.params.stopAccessServiced = false ∧ t = respondUnserviced i (stopChk { s with bus := rest })) ∨
    (∃ x rest i, s.bus = x :: rest ∧ decodeInput s.params x = some (.ok i) ∧ s.phase ≠ .terminated ∧
      (s.phase = .stopRequested → s.params.stopAccessServiced = true) ∧
      exec i (stopChk { s with bus := rest }) = .next t) := by
  cases hb : s.bus with
  | nil =>
    rw [step_nil hb] at h
    cases h
    exact .inl ⟨rfl, rfl⟩
  | cons x rest =>
    rw [step_cons hb] at h
    have transaction : ∀ d, decodeInput s.params x = some d →
        (∃ i, d = .ok i ∧ s.phase = .stopRequested ∧ s.params.stopAccessServiced = false ∧
          t = respondUnserviced i (stopChk { s with bus := rest })) ∨
        (∃ i, d = .ok i ∧ s.phase ≠ .terminated ∧ (s.phase = .stopRequested → s.params.stopAccessServiced = true) ∧
          exec i (stopChk { s with bus := rest }) = .next t) := by
      intro d hd
      rw [takeInput_access (s := { s with bus := rest }) hd] at h
      rcases access_cases d { s with bus := rest } with ⟨-, e⟩ | ⟨-, r, -, e⟩ | ⟨hp, hs, i, hi, e⟩ | ⟨hp, hs, i, hi, e⟩ <;>
        rw [e] at h
      · cases h
      · cases h
      · cases h
        exact .inl ⟨i, hi, hp, hs, rfl⟩
      · exact .inr ⟨i, hi, hp, hs, h⟩
    cases x with
    | event e => exact .inr (.inl ⟨e, rest, rfl, h⟩)
    | boundary => exact .inr (.inr (.inl ⟨rest, rfl, h⟩))
    | word T =>
      rcases transaction _ rfl with ⟨i, hi, hp, hs, e⟩ | ⟨i, hi, hp, hs, e⟩
      · exact .inr (.inr (.inr (.inl ⟨_, rest, i, rfl, congrArg some hi, hp, hs, e⟩)))
      · exact .inr (.inr (.inr (.inr ⟨_, rest, i, rfl, congrArg some hi, hp, hs, e⟩)))
    | txn u =>
      rcases transaction _ rfl with ⟨i, hi, hp, hs, e⟩ | ⟨i, hi, hp, hs, e⟩
      · exact .inr (.inr (.inr (.inl ⟨_, rest, i, rfl, congrArg some hi, hp, hs, e⟩)))
      · exact .inr (.inr (.inr (.inr ⟨_, rest, i, rfl, congrArg some hi, hp, hs, e⟩)))

end Sys2Proof.Machine
end

