-- ==== Sys2Proof/Laws/OverMemory.lean ====
section
/-! SUPPORT. Laws/OverMemory.lean: the block over a memory given as an argument (20_memory.md R53): a read answers what the
memory answers, and every call moves the memory. -/

namespace Sys2Proof.Machine

variable {σ : Type} (M : DefaultMem σ) (m : σ)

/-- A step without a memory call leaves the memory alone. -/
theorem foldl_afterCall_none (cs : List MemCall) : ((cs.drop cs.length).foldl (afterCall M) m) = m := by
  simp

/-- A step with one call moves the memory by it. -/
theorem foldl_afterCall_one (cs : List MemCall) (c : MemCall) :
    (((cs ++ [c]).drop cs.length).foldl (afterCall M) m) = afterCall M m c := by
  simp

theorem nextMemRead_memRd {s : State} {x : BusInput} {rest : List BusInput} {a : BusAddr} {w : Width}
    (hb : s.bus = x :: rest) (hd : decodeInput s.params x = some (.ok (.memRd a w))) :
    nextMemRead s = some (forwardAddr a, w) := by
  simp [nextMemRead, hb, hd, nextMemRead.memReadOf]

/-- Over any memory, a read answers what the memory answers (40_dispatch.md R116), and the memory is in the state the read
leaves. The premise says that no image byte stands before it (70_reset_and_hazards.md R211). -/
theorem takeNextOver_memRd {s : State} {x : BusInput} {rest : List BusInput} {a : BusAddr} {w : Width}
    (hb : s.bus = x :: rest) (hd : decodeInput s.params x = some (.ok (.memRd a w))) (hp : s.phase = .running)
    (hm : s.params.memory = .external)
    (hi : w = .w16 ∨ s.memCalls ≠ [] ∨ s.mem.read (forwardAddr a).toNat = none) :
    takeNextOver M m s = .next ((M.memRead (forwardAddr a) w m).2,
      { s with
        bus := rest, memIn := [], memCalls := s.memCalls ++ [.read (forwardAddr a) w]
        result := memoryResponse w (M.memRead (forwardAddr a) w m).1 }) := by
  have ha : memAnswers M m s = [(M.memRead (forwardAddr a) w m).1] := by
    rw [memAnswers, nextMemRead_memRd hb hd]
  have hs := step_running (s := { s with memIn := memAnswers M m s }) hb hd hp
  have hq := respondMemory_queued (s := { s with memIn := memAnswers M m s, bus := rest }) hm (imageByte_eq_none hi) ha
  rw [step, exec, execMemRd, hq] at hs
  rw [takeNextOver, hs]
  simp only [foldl_afterCall_one]
  rfl

/-- Over any memory, a write hands it the forwarded address, the width and the value (40_dispatch.md R117). -/
theorem takeNextOver_memWr {s : State} {x : BusInput} {rest : List BusInput} {a : BusAddr} {w : Width} {v : Half}
    (hb : s.bus = x :: rest) (hd : decodeInput s.params x = some (.ok (.memWr a w v))) (hp : s.phase = .running)
    (hm : s.params.memory = .external) :
    takeNextOver M m s = .next (M.memWrite (forwardAddr a) w (operandValue w v) m,
      { s with
        bus := rest, memIn := [], memCalls := s.memCalls ++ [.write (forwardAddr a) w (operandValue w v)]
        result := .none }) := by
  have ha : memAnswers M m s = [] := by
    simp [memAnswers, nextMemRead, hb, hd, nextMemRead.memReadOf]
  have hs := step_running (s := { s with memIn := memAnswers M m s }) hb hd hp
  have hq := storeMemory_external (s := { s with memIn := memAnswers M m s, bus := rest }) w (forwardAddr a) v hm
  rw [step, exec, execMemWr, hq] at hs
  rw [takeNextOver, hs, ha]
  simp only [respond_memCalls, callMem_memCalls, foldl_afterCall_one]
  rfl

end Sys2Proof.Machine
end

