-- ==== Sys2Proof/Laws/PerInstr.lean ====
section
/-! SUPPORT. Laws/PerInstr.lean: the reserved bits of an encoded operation are 0 (30_encoding.md R81), per constructor. -/

namespace Sys2Proof.Laws.ReservedBits

/-- The encoded word spells a transaction: bits 55:51 are 0 under every port map. -/
def Statement (i : Instr) : Prop := ∀ p : Params, (encode p i).extractLsb' 51 5 = 0

theorem uartRdData (w : Width) : Statement (.uartRdData w) := fun _ => packFields_reserved _ _ _ _ _
theorem uartRdStatus (w : Width) : Statement (.uartRdStatus w) := fun _ => packFields_reserved _ _ _ _ _
theorem swRd (w : Width) : Statement (.swRd w) := fun _ => packFields_reserved _ _ _ _ _
theorem ioRdUnhandled (a : BusAddr) (w : Width) : Statement (.ioRdUnhandled a w) := fun _ => packFields_reserved _ _ _ _ _
theorem uartWrData (w : Width) (v : Half) : Statement (.uartWrData w v) := fun _ => packFields_reserved _ _ _ _ _
theorem uartWrCtrl (w : Width) (v : Half) : Statement (.uartWrCtrl w v) := fun _ => packFields_reserved _ _ _ _ _
theorem uartWrBaud (w : Width) (v : Half) : Statement (.uartWrBaud w v) := fun _ => packFields_reserved _ _ _ _ _
theorem picWrMCmd (w : Width) (v : Half) : Statement (.picWrMCmd w v) := fun _ => packFields_reserved _ _ _ _ _
theorem picWrMData (w : Width) (v : Half) : Statement (.picWrMData w v) := fun _ => packFields_reserved _ _ _ _ _
theorem picWrSCmd (w : Width) (v : Half) : Statement (.picWrSCmd w v) := fun _ => packFields_reserved _ _ _ _ _
theorem picWrSData (w : Width) (v : Half) : Statement (.picWrSData w v) := fun _ => packFields_reserved _ _ _ _ _
theorem ctcWrData (w : Width) (v : Half) : Statement (.ctcWrData w v) := fun _ => packFields_reserved _ _ _ _ _
theorem ctcWrCtrl (w : Width) (v : Half) : Statement (.ctcWrCtrl w v) := fun _ => packFields_reserved _ _ _ _ _
theorem ioWrUnhandled (a : BusAddr) (w : Width) (v : Half) : Statement (.ioWrUnhandled a w v) :=
  fun _ => packFields_reserved _ _ _ _ _
theorem memRd (a : BusAddr) (w : Width) : Statement (.memRd a w) := fun _ => packFields_reserved _ _ _ _ _
theorem memWr (a : BusAddr) (w : Width) (v : Half) : Statement (.memWr a w v) := fun _ => packFields_reserved _ _ _ _ _

end Sys2Proof.Laws.ReservedBits
end

