-- ==== Sys2Proof/Tests/Slice0.lean ====
section
/-! SUPPORT. Tests/Slice0.lean: the well-formedness smoke, decoding of words written out from the spec, one-step tests from
95_test_vectors.md (V<n>), and a witness for every statement with hypotheses. -/

namespace Sys2Proof.Tests

open Sys2Proof Sys2Proof.Machine

/-! ## WellFormed: each check refuses an ill-formed term (30_encoding.md R80, R83) -/

/-- One term of every constructor that is well formed under the default map. -/
def wellFormedTerms : List Instr :=
  [.uartRdData .w8, .uartRdStatus .w16, .swRd .w8, .ioRdUnhandled 0xF0 .w8, .uartWrData .w16 0x418A, .uartWrCtrl .w8 0x40,
    .uartWrBaud .w8 0x0E, .picWrMCmd .w8 0x13, .picWrMData .w8 0xFF, .picWrSCmd .w16 0xFFFF, .picWrSData .w8 0,
    .ctcWrData .w8 0xF3, .ctcWrCtrl .w8 0x17, .ioWrUnhandled 0xFF .w8 0, .memRd 0x10FFEF .w16, .memWr 0x400 .w16 0x1234]

theorem test_wf_accepts : wellFormedTerms.all (WellFormed Params.default) = true := by decide

/-- An 8-bit write has nothing in value[15:8]. -/
theorem test_wf_refuses_wide_value :
    ([.uartWrData .w8 0x100, .uartWrCtrl .w8 0x100, .uartWrBaud .w8 0x100, .picWrMCmd .w8 0x100, .picWrMData .w8 0x100,
      .picWrSCmd .w8 0x100, .picWrSData .w8 0x100, .ctcWrData .w8 0x100, .ctcWrCtrl .w8 0x100,
      .ioWrUnhandled 0xFF .w8 0x100, .memWr 0 .w8 0x100] : List Instr).all (fun i => !WellFormed Params.default i) = true := by
  decide

/-- An address that a register claims is not unhandled. -/
theorem test_wf_refuses_claimed_address :
    ([.ioRdUnhandled 0xF6 .w8, .ioRdUnhandled 0xF7 .w8, .ioRdUnhandled 0xFF .w8, .ioWrUnhandled 0xF6 .w8 0,
      .ioWrUnhandled 0xF7 .w8 0, .ioWrUnhandled 0xFE .w8 0, .ioWrUnhandled 0xF0 .w8 0,
      .ioWrUnhandled 0xF5 .w8 0] : List Instr).all (fun i => !WellFormed Params.default i) = true := by
  decide

/-- A map in which every port has the number of the first comparison (30_encoding.md R83). -/
def onePort : Params :=
  { Params.default with
    uartStatus := 0xF6, sense := 0xF6, uartCtrl := 0xF6, uartBaud := 0xF6, picMCmd := 0xF6, picMData := 0xF6
    picSCmd := 0xF6, picSData := 0xF6, ctcData := 0xF6, ctcCtrl := 0xF6 }

theorem test_wf_refuses_taken_port :
    ([.uartRdStatus .w8, .swRd .w8, .uartWrCtrl .w8 0, .uartWrBaud .w8 0, .picWrMCmd .w8 0, .picWrMData .w8 0,
      .picWrSCmd .w8 0, .picWrSData .w8 0, .ctcWrData .w8 0, .ctcWrCtrl .w8 0] : List Instr).all
        (fun i => !WellFormed onePort i) = true := by
  decide

/-- A sink that shares the number of the sink before it is never selected; the one before it is. -/
theorem test_wf_earlier_sink_wins :
    WellFormed { Params.default with uartBaud := 0xF7 } (.uartWrBaud .w8 0) = false ∧
      WellFormed { Params.default with uartBaud := 0xF7 } (.uartWrCtrl .w8 0) = true := by
  decide

/-- The constraints of 00_scope.md R5: each of the four fails on a map that breaks it. -/
theorem test_params_constraints :
    Params.default.wf = true ∧ { Params.default with uartStatus := 0xF6 }.wf = false ∧
      { Params.default with sense := 0xF6 }.wf = false ∧ { Params.default with sense := 0xF7 }.wf = false ∧
      { Params.default with ctcCtrl := 0xF6 }.wf = false := by
  decide

/-! ## Decoding: words written out from 30_encoding.md R81 and R86 -/

theorem test_decode_uartRdData : decodeWord Params.default 0x5000000F60000 = .ok (.uartRdData .w16) := by decide
theorem test_decode_uartRdStatus : decodeWord Params.default 0x4000000F70000 = .ok (.uartRdStatus .w8) := by decide
theorem test_decode_swRd : decodeWord Params.default 0x5000000FF0000 = .ok (.swRd .w16) := by decide
theorem test_decode_ioRdUnhandled : decodeWord Params.default 0x4000100F60000 = .ok (.ioRdUnhandled 0x100F6 .w8) := by decide
theorem test_decode_uartWrData : decodeWord Params.default 0x7000000F68A41 = .ok (.uartWrData .w16 0x8A41) := by decide
theorem test_decode_uartWrCtrl : decodeWord Params.default 0x6000000F70040 = .ok (.uartWrCtrl .w8 0x40) := by decide
/-- The spec gives no default for `PORT_UART_BAUD`; 0xFE is the model's (log 3). -/
theorem test_decode_uartWrBaud : decodeWord Params.default 0x6000000FE000E = .ok (.uartWrBaud .w8 0x0E) := by decide
theorem test_decode_picWrMCmd : decodeWord Params.default 0x7000000F0FFFF = .ok (.picWrMCmd .w16 0xFFFF) := by decide
theorem test_decode_picWrMData : decodeWord Params.default 0x6000000F100FF = .ok (.picWrMData .w8 0xFF) := by decide
theorem test_decode_picWrSCmd : decodeWord Params.default 0x6000000F20013 = .ok (.picWrSCmd .w8 0x13) := by decide
theorem test_decode_picWrSData : decodeWord Params.default 0x6000000F30000 = .ok (.picWrSData .w8 0) := by decide
theorem test_decode_ctcWrData : decodeWord Params.default 0x6000000F40005 = .ok (.ctcWrData .w8 0x05) := by decide
theorem test_decode_ctcWrCtrl : decodeWord Params.default 0x6000000F50017 = .ok (.ctcWrCtrl .w8 0x17) := by decide
theorem test_decode_ioWrUnhandled : decodeWord Params.default 0x6000000F80055 = .ok (.ioWrUnhandled 0xF8 .w8 0x55) := by
  decide
theorem test_decode_memRd : decodeWord Params.default 0x0000000F60000 = .ok (.memRd 0xF6 .w8) := by decide
theorem test_decode_memWr : decodeWord Params.default 0x2FFFFFFFF00AA = .ok (.memWr 0xFFFFFFFF .w8 0xAA) := by decide

/-- The extra bits of an 8-bit write and of a read are ignored (30_encoding.md R81). -/
theorem test_decode_ignores_extra_bits :
    decodeWord Params.default 0x6000000F6FF41 = .ok (.uartWrData .w8 0x41) ∧
      decodeWord Params.default 0x4000000F71234 = .ok (.uartRdStatus .w8) := by
  decide

/-- Bit 51, and the padding above it, spell no transaction (30_encoding.md R81, R87 (b); log 9). -/
theorem test_decode_refuses_reserved_bits :
    decodeWord Params.default 0xC000000F70000 = .error (.reservedBits 0xC000000F70000) ∧
      decodeTableWord 56 0x84000000F70000 = none ∧ decodeTableWord 64 0x100000000000000 = none := by
  decide

/-- V45: a 32-bit access is refused. -/
theorem test_decode_refuses_width :
    decodeTxn Params.default ⟨.io, .read, 32, 0xF7, 0⟩ = .error (.badWidth 32) := by
  decide

/-- The bus mnemonics and the packed words of 30_encoding.md R88. -/
theorem test_mnemonics :
    unpack 0x1000000000000 = .ok (.ld16 0) ∧ unpack 0x3000004001234 = .ok (.st16 0x400 0x1234) ∧
      unpack 0x4000000F70000 = .ok (.in8 0xF7) ∧ unpack 0x6000000F60041 = .ok (.out8 0xF6 0x41) := by
  decide

/-! ## One step: the vectors of 95_test_vectors.md -/

/-- The next state, if there is one. -/
def nextOf : Host.Outcome State Fault Refusal → Option State
  | .next t => some t
  | .fault _ => none
  | .refused _ => none

/-- The power-on state with one packed word issued and one answer of the host queued. -/
def issued (T : Packed) (answer : HostAnswer) : State := { State.reset with bus := [.word T], hostIn := [answer] }

/-- The same with a byte in the cell. -/
def issuedHolding (T : Packed) (b : Byte) : State := { issued T .wouldBlock with rxCell := .holding b }

/-- The same in `StopRequested`. -/
def issuedStopping (T : Packed) : State := { issued T .wouldBlock with phase := .stopRequested }

/-- V5: a line feed is read as a carriage return. -/
theorem test_V5_data_read :
    (nextOf (step (issued 0x4000000F60000 (.byte 0x0A)))).map (fun t => (t.result, t.rxCell, t.hostIn)) =
      some (.byte 0x0D, .empty, []) := by
  decide

/-- V10: a 16-bit read of a held byte: the upper byte is a draw, the cell is emptied, the host is not asked. -/
theorem test_V10_data_read_16 :
    (nextOf (step (issuedHolding 0x5000000F60000 0x41))).map (fun t => (t.result, t.rxCell, t.pulls)) =
      some (.word (Config.freeByte 0 ++ 0x41#8), .empty, 0) :=
  rfl

/-- V2: the status read fills the cell and shows it. -/
theorem test_V2_status_read :
    (nextOf (step (issued 0x4000000F70000 (.byte 0x41)))).map (fun t => (t.result, t.rxCell)) =
      some (.byte 0x03, .holding 0x41) := by
  decide

/-- V7: a host error. -/
theorem test_V7_status_read_error :
    (nextOf (step (issued 0x4000000F70000 .error))).map (fun t => (t.result, t.rxCell, t.haltReq, t.haltCauses)) =
      some (.byte 0x01, .empty, true, [.hostInputError]) := by
  decide

/-- V50. -/
theorem test_V50_sense :
    (nextOf (step (issued 0x4000000FF0000 .error))).map (fun t => (t.result, t.haltReq, t.pulls)) =
      some (.byte 0x1E, false, 0) := by
  decide

/-- V30. -/
theorem test_V30_unhandled_read :
    (nextOf (step (issued 0x4000000F00000 .error))).map (fun t => (t.result, t.haltReq, t.haltCauses, t.log)) =
      some (.byte 0xFF, true, [.unhandledRead], [.unhandled .read 0xF0 .w8 none]) := by
  decide

/-- V43: the stop check comes first. -/
theorem test_V43_unhandled_read_stopping :
    (nextOf (step (issuedStopping 0x4000000F00000))).map (fun t => (t.result, t.haltReq, t.haltCauses)) =
      some (.byte 0xFF, true, [.stopRequested, .unhandledRead]) := by
  decide

/-- V16: the low byte is 0x8A, and becomes a newline. -/
theorem test_V16_data_write :
    (nextOf (step (issued 0x7000000F6418A .error))).map (fun t => (t.out, t.log)) = some ([0x0A], []) := by
  decide

/-- V17: the high byte is ignored. -/
theorem test_V17_data_write :
    (nextOf (step (issued 0x7000000F68A41 .error))).map (fun t => t.out) = some [0x41] := by
  decide

/-- V19. -/
theorem test_V19_uart_control :
    (nextOf (step (issuedHolding 0x6000000F70040 0x41))).map (fun t => (t.rxCell, t.log)) =
      some (.holding 0x41, [.accepted .uartCtrl 0xF7 .w8 0x40]) := by
  decide

/-- V23, under the model's number for `PORT_UART_BAUD` (log 3). -/
theorem test_V23_uart_baud :
    (nextOf (step (issued 0x6000000FE000E .error))).map (fun t => t.log) = some [.accepted .uartBaud 0xFE .w8 0x0E] := by
  decide

/-- V64: nothing goes to port 0xF1. -/
theorem test_V64_pic_master_command :
    (nextOf (step (issued 0x7000000F0FFFF .error))).map (fun t => (t.log, t.haltReq)) =
      some ([.accepted .picMCmd 0xF0 .w16 0xFFFF], false) := by
  decide

/-- V61. -/
theorem test_V61_pic_master_data :
    (nextOf (step (issued 0x6000000F100FF .error))).map (fun t => t.log) = some [.accepted .picMData 0xF1 .w8 0xFF] := by
  decide

/-- V62. -/
theorem test_V62_pic_slave_command :
    (nextOf (step (issued 0x6000000F20013 .error))).map (fun t => t.log) = some [.accepted .picSCmd 0xF2 .w8 0x13] := by
  decide

/-- V63. -/
theorem test_V63_pic_slave_data :
    (nextOf (step (issued 0x6000000F30000 .error))).map (fun t => t.log) = some [.accepted .picSData 0xF3 .w8 0] := by
  decide

/-- V71. -/
theorem test_V71_ctc_data :
    (nextOf (step (issued 0x6000000F400F3 .error))).map (fun t => t.log) = some [.accepted .ctcData 0xF4 .w8 0xF3] := by
  decide

/-- V70. -/
theorem test_V70_ctc_control :
    (nextOf (step (issued 0x6000000F50017 .error))).map (fun t => t.log) = some [.accepted .ctcCtrl 0xF5 .w8 0x17] := by
  decide

/-- V34: a write to the switches is fatal, and nothing reaches the operator. -/
theorem test_V34_unhandled_write :
    (nextOf (step (issued 0x6000000FF0000 .error))).map (fun t => (t.haltCauses, t.out, t.log)) =
      some ([.unhandledWrite], [], [.unhandled .write 0xFF .w8 (some 0)]) := by
  decide

/-- V37: a memory read at a port's number is a memory read; the byte is the one memory holds. -/
theorem test_V37_memory_read :
    (nextOf (step { issuedHolding 0x0000000F60000 0x41 with mem := [(0xF6, 0x77)] })).map (fun t => (t.result, t.rxCell)) =
      some (.byte 0x77, .holding 0x41) := by
  decide

/-- V39: the address wraps, and the low byte lies lower (log 7). -/
theorem test_V39_memory_read_16 :
    (nextOf (step { issued 0x10010FFEF0000 .error with mem := [(0xFFEF, 0x34), (0xFFF0, 0x12)] })).map
        (fun t => (t.result, t.memCalls)) =
      some (.word 0x1234, [.read 0x0FFEF .w16]) := by
  decide

/-- V40: the address wraps to the last byte. -/
theorem test_V40_memory_write :
    (nextOf (step (issued 0x2FFFFFFFF00AA .error))).map (fun t => (t.mem, t.memCalls)) =
      some ([(0xFFFFF, 0xAA)], [.write 0xFFFFF .w8 0xAA]) := by
  decide

/-- A word at the top of memory wraps (20_memory.md R55, under the instantiation of log 7). -/
theorem test_memory_write_16_wraps :
    (nextOf (step (issued 0x3000FFFFF1234 .error))).map (fun t => t.mem) = some [(0x00000, 0x12), (0xFFFFF, 0x34)] := by
  decide

/-- The power-on state over an external memory, with one packed word issued and one answer of the memory queued. -/
def issuedOver (T : Packed) (answer : Half) : State :=
  { State.reset with
    bus := [.word T], memIn := [answer], params := { Params.default with memory := .external } }

/-- V39 over an external memory: the call is `MemRead(0x0FFEF, 2)`, and its answer is the memory's (20_memory.md R53). -/
theorem test_V39_external_read :
    (nextOf (step (issuedOver 0x10010FFEF0000 0xBEEF))).map (fun t => (t.result, t.memCalls, t.memIn)) =
      some (.word 0xBEEF, [.read 0x0FFEF .w16], []) := by
  decide

/-- V41 over an external memory: the call is `MemWrite(0x00400, 2, 0x1234)`. -/
theorem test_V41_external_write :
    (nextOf (step (issuedOver 0x3000004001234 0xBEEF))).map (fun t => (t.result, t.memCalls, t.mem)) =
      some (.none, [.write 0x00400 .w16 0x1234], []) := by
  decide

/-- A memory whose image region is write-protected, as an argument: one byte, which keeps its value. -/
def protectedByte : DefaultMem Byte where
  memRead _ _ b := (b.setWidth 16, b)
  memWrite _ _ _ b := b

/-- A store to it, and a load from it (40_dispatch.md R117: whether a write changes memory is `DefaultMem`'s). -/
theorem test_protected_memory :
    takeNextOver protectedByte 0x77 (issuedOver 0x2000FFFFF00AA 0) =
        .next (0x77, { issuedOver 0 0 with bus := [], memIn := [], memCalls := [.write 0xFFFFF .w8 0xAA] }) ∧
      takeNextOver protectedByte 0x77 (issuedOver 0x0000FFFFF0000 0) =
        .next (0x77, { issuedOver 0 0 with
          bus := [], memIn := [], memCalls := [.read 0xFFFFF .w8], result := .byte 0x77 }) :=
  ⟨rfl, rfl⟩

/-- V80 and V81: the two signals. -/
theorem test_V80_V81_signals :
    (nextOf (step { State.reset with bus := [.event .stopSignal] })).map (fun t => (t.phase, t.haltReq)) =
        some (.stopRequested, false) ∧
      (nextOf (step { State.reset with bus := [.event .killSignal], phase := .stopRequested })).map
        (fun t => (t.phase, t.haltReq)) = some (.terminated, false) := by
  decide

/-- V44, V84 and V85: no step. -/
theorem test_V44_V84_V85_no_step :
    nextOf (step { issued 0x4000000FF0000 .error with phase := .terminated }) = none ∧
      nextOf (step { State.reset with bus := [.event .killSignal] }) = none ∧
      nextOf (step { State.reset with bus := [.event .runLoopReturn], phase := .terminated }) = none := by
  decide

/-! ## Witnesses: for every statement with hypotheses, a state and operands that meet them -/

theorem test_witness_DecodeOfEncode : wellFormedTerms.all (WellFormed Params.default) = true := test_wf_accepts

theorem test_witness_EncodeOfDecode : decodeWord Params.default 0x6000000F6FF41 = .ok (.uartWrData .w8 0x41) := by decide

theorem test_witness_IgnoredBitsDoNotMatter : (0x6000000F6FF41 : Packed).extractLsb' 51 5 = 0 := by decide

theorem test_witness_WordsWithReservedBitsHaveNoMeaning :
    (0x8000000000000 : Packed).extractLsb' 51 5 ≠ 0 ∧ (0x80000000000000 : Packed).extractLsb' 51 5 ≠ 0 := by
  decide

/-- Widths on either side of the two with a meaning. -/
theorem test_witness_TuplesOfOtherWidthsHaveNoMeaning :
    ∀ n ∈ [0, 7, 9, 15, 17, 32], n ≠ 8 ∧ n ≠ 16 := by
  decide

theorem test_witness_IoReadsFollowTheMap :
    Params.default.wf = true ∧ (0xF6 : BusAddr) = Params.default.uartData ∧ (0xF7 : BusAddr) = Params.default.uartStatus ∧
      (0xFF : BusAddr) = Params.default.sense ∧ (0xF0 : BusAddr) ∉ Params.default.readPorts := by
  decide

theorem test_witness_IoWritesFollowTheMap :
    Params.default.wf = true ∧ (0xF6 : BusAddr) = Params.default.uartData ∧ (0xF5 : BusAddr) ∈ Params.default.sinkPorts ∧
      (0xFF : BusAddr) ∉ Params.default.writePorts := by
  decide

theorem test_witness_DistinctSinkPortsSelectTheirOperation :
    Params.default.wf = true ∧ Params.default.sinkPorts.Nodup := by
  decide

/-- The status address is no sink under a map with the control address elsewhere. -/
theorem test_witness_WrongDirectionIsUnhandled :
    (0xF0 : BusAddr) ∈ Params.default.sinkPorts ∧ (0xF0 : BusAddr) ∉ Params.default.readPorts ∧
      Params.default.sense ∉ Params.default.writePorts ∧
      ({ Params.default with uartCtrl := 0xF9 } : Params).uartStatus ∉
        ({ Params.default with uartCtrl := 0xF9 } : Params).writePorts := by
  decide

theorem test_witness_StepPerformsTheDecodedOperation :
    (issued 0x4000000F70000 .error).bus = [.word 0x4000000F70000] ∧
      decodeInput Params.default (.word 0x4000000F70000) = some (.ok (.uartRdStatus .w8)) ∧
      (issued 0x4000000F70000 .error).phase = .running := by
  decide

theorem test_witness_StepInStopRequestedRaisesThenPerforms :
    (issuedStopping 0x4000000F70000).phase = .stopRequested ∧
      (issuedStopping 0x4000000F70000).params.stopAccessServiced = true ∧
      decodeInput (issuedStopping 0x4000000F70000).params (.word 0x4000000F70000) = some (.ok (.uartRdStatus .w8)) := by
  decide

/-- A state whose decoder returns early. -/
def unserviced (T : Packed) : State :=
  { issuedStopping T with params := { Params.default with stopAccessServiced := false } }

/-- The three clauses: a write, a read of 8 bits and a read of 16 bits. -/
theorem test_witness_UnservicedAccessReturnsDraws :
    (unserviced 0x6000000F60041).phase = .stopRequested ∧
      (unserviced 0x6000000F60041).params.stopAccessServiced = false ∧
      opOf (unserviced 0).params (.word 0x6000000F60041) = some (.uartWrData .w8 0x41) ∧
      opOf (unserviced 0).params (.word 0x4000000FF0000) = some (.swRd .w8) ∧
      opOf (unserviced 0).params (.word 0x1000000000000) = some (.memRd 0 .w16) ∧
      Instr.readWidth (.uartWrData .w8 0x41) = none ∧ Instr.readWidth (.swRd .w8) = some .w8 ∧
      Instr.readWidth (.memRd 0 .w16) = some .w16 := by
  decide

theorem test_witness_NoInputIsTakenAfterTermination :
    ({ State.reset with bus := [.boundary], phase := .terminated } : State).phase = .terminated ∧
      (∀ e, BusInput.boundary ≠ .event e) ∧ BusInput.event .stopSignal = .event .stopSignal :=
  ⟨rfl, by simp, rfl⟩

theorem test_witness_MeaninglessTransactionsAreRefused :
    (issued 0x8000000000000 .error).phase ≠ .terminated ∧
      (issued 0x8000000000000 .error).bus = [.word 0x8000000000000] ∧ (0x8000000000000 : Packed).extractLsb' 51 5 ≠ 0 ∧
      (⟨.io, .read, 32, 0xF7, 0⟩ : Txn).width ≠ 8 ∧ (⟨.io, .read, 32, 0xF7, 0⟩ : Txn).width ≠ 16 := by
  decide

theorem test_witness_WithoutInputNothingChanges : State.reset.bus = [] := rfl

theorem test_witness_PlacedTableWordIsPerformed :
    State.reset.phase = .running ∧ State.reset.params = Params.default ∧
      decodeTableWord 56 0x6000000F40000 = some (.ctcWrData .w8 0) := by
  decide

/-- The events' clauses: each phase in which the event is taken, and one in which it is not. -/
theorem test_witness_events :
    State.reset.phase = .running ∧ (issuedStopping 0).phase = .stopRequested ∧
      ({ State.reset with bus := [.event .stopSignal], phase := .stopRequested } : State).phase ≠ .running ∧
      ({ State.reset with bus := [.event .killSignal] } : State).phase ≠ .stopRequested ∧
      ({ State.reset with bus := [.event .runLoopReturn], phase := .terminated } : State).phase = .terminated := by
  decide

theorem test_witness_StopSignalOnlySetsThePhase :
    ({ State.reset with bus := [.event .stopSignal] } : State).bus = [.event .stopSignal] ∧ State.reset.phase = .running :=
  ⟨rfl, rfl⟩

theorem test_witness_KillSignalOnlySetsThePhase :
    ({ State.reset with bus := [.event .killSignal], phase := .stopRequested } : State).bus = [.event .killSignal] ∧
      ({ State.reset with bus := [.event .killSignal], phase := .stopRequested } : State).phase = .stopRequested :=
  ⟨rfl, rfl⟩

theorem test_witness_RunLoopReturnEndsTheRun :
    ({ State.reset with bus := [.event .runLoopReturn] } : State).bus = [.event .runLoopReturn] ∧
      State.reset.phase ≠ .terminated :=
  ⟨rfl, by decide⟩

theorem test_witness_BoundaryHonoursTheHaltRequest :
    ({ State.reset with bus := [.boundary], haltReq := true } : State).haltReq = true ∧
      ({ State.reset with bus := [.boundary] } : State).haltReq = false ∧ State.reset.phase ≠ .terminated :=
  ⟨rfl, rfl, by decide⟩

/-- The phase moves by an event, and at a boundary with a halt request. -/
theorem test_witness_OnlyEventsMoveThePhase :
    step { State.reset with bus := [.event .stopSignal] } = .next { State.reset with phase := .stopRequested } ∧
      step { State.reset with bus := [.boundary], haltReq := true } =
        .next { State.reset with haltReq := true, phase := .terminated } ∧
      Phase.stopRequested ≠ State.reset.phase ∧ Phase.terminated ≠ State.reset.phase :=
  ⟨rfl, rfl, by decide, by decide⟩

/-- The four clauses of a UART read: a held byte, the byte that is substituted, nothing waiting, an error. -/
theorem test_witness_uart_reads :
    (issuedHolding 0 0x41).rxCell = .holding 0x41 ∧ (issued 0 (.byte 0x0A)).rxCell = .empty ∧
      nextAnswer (issued 0 (.byte 0x0A)) = .byte 0x0A ∧ nextAnswer (issued 0 .wouldBlock) = .wouldBlock ∧
      nextAnswer (issued 0 .error) = .error := by
  decide

theorem test_witness_DataReadGivesTheByteAndEmptiesTheCell :
    (issued 0 (.byte 0x0A)).rxCell = .empty ∧ nextAnswer (issued 0 (.byte 0x0A)) = .byte Config.rxLf := by
  decide

theorem test_witness_StatusReadReportsTheCellAfterThePull :
    (issued 0 (.byte 0xFF)).rxCell = .empty ∧ nextAnswer (issued 0 (.byte 0xFF)) = .byte 0xFF := by
  decide

theorem test_witness_StatusBitsMeanWhatTheySay :
    (nextOf (exec (.uartRdStatus .w8) (issued 0 .wouldBlock))).map (fun t => (t.result.lowByte, t.rxCell)) =
        some (some 0x01, .empty) ∧
      (nextOf (exec (.uartRdStatus .w8) (issued 0 (.byte 0)))).map (fun t => (t.result.lowByte, t.rxCell)) =
        some (some 0x03, .holding 0) ∧
      State.reset.params.statusUpper = 0 := by
  decide

/-- The state after one data read of the held byte 0x41, with nothing waiting at the host. -/
def afterDataRead : State := { issuedHolding 0 0x41 with rxCell := .empty, result := .byte 0x41 }

theorem test_witness_SecondDataReadFindsNothing :
    nextAnswer (issuedHolding 0 0x41) = .wouldBlock ∧
      exec (.uartRdData .w8) (issuedHolding 0 0x41) = .next afterDataRead ∧
      exec (.uartRdData .w8) afterDataRead = .next { afterDataRead with hostIn := [], pulls := 1, result := .byte 0xFF } :=
  ⟨rfl, rfl, rfl⟩

theorem test_witness_PollThenReadDelivers :
    exec (.uartRdStatus .w8) (issuedHolding 0 0x41) = .next { issuedHolding 0 0x41 with result := .byte 0x03 } ∧
      (0x03 : Byte).getLsbD 1 = true :=
  ⟨rfl, by decide⟩

/-- The three clauses: a byte is handed over, none is, and never more than one. -/
theorem test_witness_HandedByteIsTheResult :
    opOf Params.default (.word 0x4000000F60000) = some (.uartRdData .w8) ∧
      Params.default.stopAccessServiced = true ∧ handedNext (issued 0x4000000F60000 (.byte 0x0A)) = [0x0D] ∧
      handedNext (issued 0x4000000F60000 .wouldBlock) = [] ∧
      (nextOf (step (issued 0x4000000F60000 (.byte 0x0A)))).isSome = true := by
  decide

/-- A run of one status read. -/
theorem test_witness_HostBytesAreHandedOverInOrder :
    Host.Core.run Sys2Proof.core 1 (issued 0x4000000F70000 (.byte 0x41)) =
        .next { State.reset with rxCell := .holding 0x41, result := .byte 0x03, pulls := 1 } ∧
      1 - (issued 0x4000000F70000 (.byte 0x41)).pulls ≤ (issued 0x4000000F70000 (.byte 0x41)).hostIn.length :=
  ⟨rfl, by decide⟩

theorem test_witness_OutIsTheDataWritesInOrder :
    Host.Core.run Sys2Proof.core 1 { State.reset with bus := [.word 0x6000000F6008A] } =
      .next { State.reset with out := [0x0A] } :=
  rfl

theorem test_witness_PullsAreAtMostTheUartReads :
    Host.Core.run Sys2Proof.core 1 (issued 0x4000000F60000 .wouldBlock) =
      .next { State.reset with result := .byte 0xFF, pulls := 1 } :=
  rfl

/-- Both clauses: a status read fills the cell, a data read empties it. -/
theorem test_witness_OnlyUartReadsChangeTheCell :
    (nextOf (step (issued 0x4000000F70000 (.byte 0x41)))).map (fun t => t.rxCell) = some (.holding 0x41) ∧
      (nextOf (step (issuedHolding 0x4000000F60000 0x41))).map (fun t => t.rxCell) = some .empty := by
  decide

theorem test_witness_OnlyDataWritesAppendToOut :
    (nextOf (step (issued 0x6000000F600FF .error))).map (fun t => t.out) = some [0xFF] := by
  decide

/-- A run of one sink write. -/
theorem test_witness_SinkWritesAreInvisible :
    (issued 0x6000000F00013 .error).phase = .running ∧
      Host.Core.run Sys2Proof.core 1 { State.reset with bus := [.word 0x6000000F00013] } =
        .next { State.reset with log := [.accepted .picMCmd 0xF0 .w8 0x13] } :=
  ⟨rfl, rfl⟩

/-- Each kind of cause: an unhandled read, an unhandled write, a host error, a stop request, and none. -/
theorem test_witness_CausesOfOneTransaction :
    (nextOf (step (issued 0x4000000000000 .error))).map (fun t => t.haltCauses) = some [.unhandledRead] ∧
      (nextOf (step (issued 0x6FFFFFFFF0000 .error))).map (fun t => t.haltCauses) = some [.unhandledWrite] ∧
      (nextOf (step (issued 0x4000000F60000 .error))).map (fun t => t.haltCauses) = some [.hostInputError] ∧
      (nextOf (step (issuedStopping 0x4000000F60000))).map (fun t => t.haltCauses) = some [.stopRequested] ∧
      (nextOf (step (issued 0x4000000FF0000 .error))).map (fun t => t.haltCauses) = some [] := by
  decide

theorem test_witness_FatalExactlyOutsideTheMapOrOnHostError :
    opOf Params.default (.word 0x4000000FF0000) = some (.swRd .w8) ∧
      (nextOf (step (issued 0x4000000FF0000 .error))).isSome = true ∧ NothingFatal State.reset :=
  ⟨by decide, by decide, fun c hc => by cases hc⟩

/-- A word store at the top of memory: both bytes' addresses, an address beside them, and both instantiations. -/
theorem test_witness_MemoryWriteStoresItsBytes :
    State.reset.params.memory = .flat ∧ (issuedOver 0 0).params.memory = .external ∧
      ((0xFFFFF : BusAddr).toNat + 1) % 0x100000 = 0 ∧ (0xFFFFF : BusAddr).toNat % 0x100000 = 0xFFFFF ∧
      (1 : Nat) ≠ 0 ∧ (1 : Nat) ≠ 0xFFFFF := by
  decide

theorem test_witness_StoreThenLoadReadsBack :
    State.reset.params.memory = .flat ∧
      exec (.memWr 0 .w8 0x41) State.reset =
        .next { State.reset with mem := [(0, 0x41)], memCalls := [.write 0 .w8 0x41] } ∧
      (nextOf (exec (.memRd 0 .w8) { State.reset with mem := [(0, 0x41)], memCalls := [.write 0 .w8 0x41] })).isSome = true ∧
      exec (.memWr 0 .w16 0x1241) State.reset =
        .next { State.reset with mem := [(0, 0x41), (1, 0x12)], memCalls := [.write 0 .w16 0x1241] } ∧
      (nextOf (exec (.memRd 0 .w16)
        { State.reset with mem := [(0, 0x41), (1, 0x12)], memCalls := [.write 0 .w16 0x1241] })).isSome = true :=
  ⟨rfl, rfl, rfl, rfl, rfl⟩

/-- The clauses over an external memory: the image's byte at power-on, a queued answer, none queued, at both widths. -/
theorem test_witness_MemoryReadIsForwarded :
    State.reset.params.memory = .flat ∧ (issuedOver 0 0).params.memory = .external ∧ (issuedOver 0 0).memCalls = [] ∧
      ({ issuedOver 0 0 with mem := [(0xFFFFF, 0x90)] } : State).mem.read ((0xFFFFF : BusAddr).toNat % 0x100000) = some 0x90 ∧
      (issuedOver 0 0).mem.read ((0xFFFFF : BusAddr).toNat % 0x100000) = none ∧
      ({ issuedOver 0 0 with memCalls := [.read 0 .w8] } : State).memCalls ≠ [] ∧
      (issuedOver 0 0xFFFF).memIn = [0xFFFF] ∧ ({ issuedOver 0 0 with memIn := [] } : State).memIn = [] := by
  decide

theorem test_witness_MemoryAddressesWrap : (0x100000 : BusAddr).toNat % 0x100000 = (0 : BusAddr).toNat % 0x100000 := by
  decide

/-- A memory read meets the premises of the clauses on the cell, the output, the log, the causes and memory; a switch read
those on the memory calls; a write to a sink the last. -/
theorem test_witness_OnlyTheNamedOperationsWrite :
    exec (.memRd 0 .w8) { State.reset with mem := [(0, 0x41)] } =
        .next { State.reset with mem := [(0, 0x41)], memCalls := [.read 0 .w8], result := .byte 0x41 } ∧
      Instr.isUartRead (.memRd 0 .w8) = false ∧ Instr.isSink (.memRd 0 .w8) = false ∧
      exec (.swRd .w8) State.reset = .next { State.reset with result := .byte 0x1E } ∧
      exec (.picWrMCmd .w8 0x13) State.reset = .next { State.reset with log := [.accepted .picMCmd 0xF0 .w8 0x13] } ∧
      Instr.readWidth (.picWrMCmd .w8 0x13) = none :=
  ⟨rfl, rfl, rfl, rfl, rfl, rfl⟩

theorem test_witness_ResponseHasTheWidthOfTheAccess :
    exec (.swRd .w8) State.reset = .next { State.reset with result := .byte 0x1E } ∧
      exec (.swRd .w16) State.reset = .next { State.reset with result := .word (Config.freeByte 0 ++ 0x1E#8), draws := 1 } ∧
      exec (.uartWrData .w8 0x41) State.reset = .next { State.reset with out := [0x41] } :=
  ⟨rfl, rfl, rfl⟩

theorem test_witness_RunsOnlyMoveForward :
    Host.Core.run Sys2Proof.core 1 { State.reset with bus := [.event .stopSignal] } =
      .next { State.reset with phase := .stopRequested } :=
  rfl

/-- A status read with the host silent, and the same with a byte in the cell and a byte typed. -/
theorem test_witness_HostInputNeverReachesTheOutput :
    Host.Core.run Sys2Proof.core 1 (issued 0x4000000F70000 .wouldBlock) =
        .next { State.reset with result := .byte 0x01, pulls := 1 } ∧
      Host.Core.run Sys2Proof.core 1
          { issued 0x4000000F70000 .wouldBlock with rxCell := .holding 0x41, hostIn := [.byte 0x42], pulls := 7 } =
        .next { State.reset with result := .byte 0x03, rxCell := .holding 0x41, hostIn := [.byte 0x42], pulls := 7 } :=
  ⟨rfl, rfl⟩

/-- A state that meets the invariant with something in every part of it. -/
def busy : State :=
  { issuedStopping 0x4000000F00000 with
    mem := [(0, 0x41), (0xFFFFF, 0x12)], rxCell := .holding 0x0D, haltReq := true
    haltCauses := [.unhandledRead, .stopRequested], log := [.unhandled .read 0xF0 .w8 none] }

theorem test_witness_EveryStepKeepsTheInvariant : Inv busy ∧ (nextOf (step busy)).isSome = true :=
  ⟨⟨by decide, by decide, by decide, by decide, by decide, by decide⟩, by decide⟩

/-- An image of each size, its first and last byte, the addresses beside it, and two sizes that are refused. -/
theorem test_witness_ImageOccupiesTheTopOfMemory :
    (List.replicate 2048 (0x90 : Byte)).length = 2048 ∧ (List.replicate 4096 (0x90 : Byte)).length = 4096 ∧
      (0 < 2048 ∧ 2047 < 2048) ∧ (0xFF7FF < 0x100000 - 2048 ∧ 0xFEFFF < 0x100000 - 4096) ∧
      (List.replicate 2048 (0x90 : Byte))[2047]? = some 0x90 ∧ (0xFFFFF : BusAddr).toNat = 0x100000 - 2048 + 2047 ∧
      (List.replicate 2047 (0x90 : Byte)).length ≠ 2048 ∧ (List.replicate 2047 (0x90 : Byte)).length ≠ 4096 :=
  ⟨List.length_replicate, List.length_replicate, by omega, by omega,
    by rw [List.getElem?_replicate]; rfl, rfl, by rw [List.length_replicate]; omega,
    by rw [List.length_replicate]; omega⟩

theorem test_witness_PowerOnMeetsTheInvariant :
    Params.default.wf = true ∧ ∃ s, powerOn Params.default (List.replicate 2048 0x90) = some s :=
  ⟨by decide, _, by unfold powerOn; rw [List.length_replicate]; rfl⟩

end Sys2Proof.Tests
end

namespace Sys2Proof.Proofs

open Sys2Proof Sys2Proof.Machine

/-! What each shared operation and each instruction does to the receive cell (10_state.md R21). -/

@[simp] theorem stopChk_rxCell (s : State) : (stopChk s).rxCell = s.rxCell := by
  obtain ⟨-, h⟩ | ⟨-, h⟩ := stopChk_cases s <;> simp [h]

@[simp] theorem respondUnserviced_rxCell (i : Instr) (s : State) : (respondUnserviced i s).rxCell = s.rxCell := by
  unfold respondUnserviced
  split <;> simp

@[simp] theorem respondRegister_rxCell (w : Width) (r : Byte) (s : State) :
    (respondRegister w r s).rxCell = s.rxCell := by
  rw [respondRegister_eq]

@[simp] theorem respondMemory_rxCell (w : Width) (a : MemAddr) (s : State) :
    (respondMemory w a s).rxCell = s.rxCell := by
  obtain ⟨r, d, q, h⟩ := respondMemory_frame w a s
  rw [h]

@[simp] theorem storeMemory_rxCell (w : Width) (a : MemAddr) (v : Half) (s : State) :
    (storeMemory w a v s).rxCell = s.rxCell := by
  rw [storeMemory_eq]

/-- `TRYRX` changes the cell only by filling an empty one, never with `RX_LF` (41_uart.md R131). -/
theorem tryRx_rxCell_cases (s : State) :
    (tryRx s).rxCell = s.rxCell ∨
      (s.rxCell = .empty ∧ ∃ b, (tryRx s).rxCell = .holding b ∧ b ≠ Config.rxLf) := by
  obtain ⟨b, -, h⟩ | ⟨b, hempty, -, h⟩ | ⟨-, -, h⟩ | ⟨-, -, h⟩ := tryRx_cases s <;> rw [h]
  · exact .inl rfl
  · exact .inr ⟨hempty, rxTranslate b, rfl, rxTranslate_ne_lf b⟩
  · exact .inl rfl
  · exact .inl rfl

theorem exec_uartRdData_rxCell {w : Width} {s t : State} (h : exec (.uartRdData w) s = .next t) :
    t.rxCell = .empty := by
  cases h
  rw [respondRegister_rxCell, setCell_rxCell]

theorem exec_uartRdStatus_rxCell {w : Width} {s t : State} (h : exec (.uartRdStatus w) s = .next t) :
    t.rxCell = (tryRx s).rxCell := by
  cases h
  rw [respondRegister_rxCell]

/-- An operation that may not pull leaves the cell alone (10_state.md R21). -/
theorem exec_rxCell_of_not_isUartRead {i : Instr} {s t : State} (hi : i.isUartRead = false)
    (h : exec i s = .next t) : t.rxCell = s.rxCell := by
  cases i with
  | uartRdData w | uartRdStatus w => cases hi
  | swRd w | ioRdUnhandled a w =>
    cases h
    exact respondRegister_rxCell _ _ _
  | memRd a w =>
    cases h
    exact respondMemory_rxCell _ _ _
  | memWr a w v =>
    cases h
    exact storeMemory_rxCell _ _ _ _
  | uartWrData w v | uartWrCtrl w v | uartWrBaud w v | picWrMCmd w v | picWrMData w v | picWrSCmd w v
  | picWrSData w v | ctcWrData w v | ctcWrCtrl w v | ioWrUnhandled a w v =>
    cases h
    rfl

/-- Every way an operation can change the cell. -/
theorem exec_rxCell_cases {i : Instr} {s t : State} (h : exec i s = .next t) (hne : t.rxCell ≠ s.rxCell) :
    (t.rxCell = .empty ∧ ∃ w, i = .uartRdData w) ∨
      (s.rxCell = .empty ∧ ∃ b w, t.rxCell = .holding b ∧ b ≠ Config.rxLf ∧ i = .uartRdStatus w) := by
  cases hi : i.isUartRead with
  | false => exact absurd (exec_rxCell_of_not_isUartRead hi h) hne
  | true =>
    cases i with
    | uartRdData w => exact .inl ⟨exec_uartRdData_rxCell h, w, rfl⟩
    | uartRdStatus w =>
      have hcell := exec_uartRdStatus_rxCell h
      obtain hsame | ⟨hempty, b, hb, hlf⟩ := tryRx_rxCell_cases s
      · exact absurd (hcell.trans hsame) hne
      · exact .inr ⟨hempty, b, w, hcell.trans hb, hlf, rfl⟩
    | _ => cases hi

theorem opOf_of_decodeInput {p : Params} {x : BusInput} {i : Instr} (h : decodeInput p x = some (.ok i)) :
    opOf p x = some i := by
  simp [opOf, h]

/-- A step that changes the cell performs the operation its input asks for, and that operation changes it. -/
theorem step_rxCell_ne {s t : State} (h : step s = .next t) (hne : t.rxCell ≠ s.rxCell) :
    ∃ x rest i, s.bus = x :: rest ∧ opOf s.params x = some i ∧
      exec i (stopChk { s with bus := rest }) = .next t := by
  obtain ⟨-, rfl⟩ | ⟨e, rest, -, he⟩ | ⟨rest, -, hb⟩ | ⟨x, rest, i, -, -, -, -, rfl⟩ |
    ⟨x, rest, i, hbus, hdec, -, -, hexec⟩ := step_next_cases h
  · exact absurd rfl hne
  · obtain ⟨p, rfl, -⟩ := takeEvent_next he
    exact absurd rfl hne
  · obtain ⟨-, ⟨-, rfl⟩ | ⟨-, rfl⟩⟩ := atBoundary_next hb <;> exact absurd rfl hne
  · exact absurd (by simp) hne
  · exact ⟨x, rest, i, hbus, opOf_of_decodeInput hdec, hexec⟩

/-- Settles O37: events, boundaries and unserviced transactions leave the cell alone, so a step that changes it performs an
operation, and only the two UART reads change it. -/
theorem onlyUartReadsChangeTheCell : Obligations.OnlyUartReadsChangeTheCell := by
  intro s t hstep hne
  obtain ⟨x, rest, i, hbus, hop, hexec⟩ := step_rxCell_ne hstep hne
  have hcell : (stopChk { s with bus := rest }).rxCell = s.rxCell := stopChk_rxCell _
  have hcases := exec_rxCell_cases hexec (by rwa [hcell])
  rw [hcell] at hcases
  exact ⟨x, rest, i, hbus, hop, hcases⟩

end Sys2Proof.Proofs

namespace Sys2Proof.Proofs

open Sys2Proof Sys2Proof.Machine

/-! The two unhandled `io` operations: a logged event, a raised cause and a response (40_dispatch.md R112, R113). -/

theorem exec_ioRdUnhandled (a : BusAddr) (w : Width) (s : State) :
    exec (.ioRdUnhandled a w) s =
      .next (respondRegister w Config.fill (raise .unhandledRead (logEvent (.unhandled .read a w none) s))) := rfl

theorem exec_ioWrUnhandled (a : BusAddr) (w : Width) (v : Half) (s : State) :
    exec (.ioWrUnhandled a w v) s =
      .next (respond .none (raise .unhandledWrite (logEvent (.unhandled .write a w (some v)) s))) := rfl

/-- Logging an event and raising a cause change the log and the halt request only (10_state.md R25, 60_exceptions.md
R185). -/
theorem raise_logEvent_eq (c : Cause) (e : LogEvent) (s : State) :
    raise c (logEvent e s) =
      { s with log := s.log ++ [e], haltReq := true, haltCauses := s.haltCauses ++ [c] } := rfl

/-- Settles O43: a register read of `FILL` changes the response and the draws only, so the log, the request and the cause
are those of the logged and raised access. -/
theorem unhandledReadRaisesAndFills : Obligations.UnhandledReadRaisesAndFills := by
  intro a w s
  rw [exec_ioRdUnhandled, respondRegister_eq, raise_logEvent_eq]
  rfl

/-- Settles O44: the written value goes into the logged event and nowhere else. -/
theorem unhandledWriteRaises : Obligations.UnhandledWriteRaises := by
  intro a w v s
  rw [exec_ioWrUnhandled, raise_logEvent_eq]
  rfl

end Sys2Proof.Proofs

namespace Sys2Proof.Proofs

open Sys2Proof Sys2Proof.Machine

/-! The UART data register and the two UART write sinks, each operation through what `TRYRX`, the cell and the response do
(41_uart.md R132, R134 to R136). -/

/-- Setting the cell to what it holds changes nothing. -/
theorem setCell_of_rxCell {c : RxCell} {s : State} (h : s.rxCell = c) : setCell c s = s := by
  subst h
  rfl

@[simp] theorem setCell_setCell (c d : RxCell) (s : State) : setCell c (setCell d s) = setCell c s := rfl

theorem dataByte_holding {b : Byte} {s : State} (h : s.rxCell = .holding b) : dataByte s = b := by
  simp [dataByte, h]

theorem dataByte_empty {s : State} (h : s.rxCell = .empty) : dataByte s = Config.fill := by
  simp [dataByte, h]

theorem exec_uartRdData (w : Width) (s : State) :
    exec (.uartRdData w) s = .next (respondRegister w (dataByte (tryRx s)) (setCell .empty (tryRx s))) := rfl

/-- A data read whose `TRYRX` leaves a byte gives that byte and empties the cell (41_uart.md R132). -/
theorem exec_uartRdData_of_holding {b : Byte} {s : State} (w : Width) (h : (tryRx s).rxCell = .holding b) :
    exec (.uartRdData w) s = .next (respondRegister w b (setCell .empty (tryRx s))) := by
  rw [exec_uartRdData, dataByte_holding h]

/-- A data read whose `TRYRX` leaves the cell empty gives `FILL` and does nothing more (41_uart.md R132 (c)). -/
theorem exec_uartRdData_of_empty {s : State} (w : Width) (h : (tryRx s).rxCell = .empty) :
    exec (.uartRdData w) s = .next (respondRegister w Config.fill (tryRx s)) := by
  rw [exec_uartRdData, dataByte_empty h, setCell_of_rxCell h]

/-- Settles O26: the four cases of `TRYRX`. In the first two it leaves a byte, which the read gives while emptying the cell;
in the last two it leaves the cell empty, and the read gives `FILL`. -/
theorem dataReadGivesTheByteAndEmptiesTheCell : Obligations.DataReadGivesTheByteAndEmptiesTheCell := by
  intro w s
  refine ⟨fun b hcell => ?held, fun b hempty hans => ?byte, fun hempty hans => ?wouldBlock, fun hempty hans => ?error⟩
  case held =>
    have hrx := tryRx_holding hcell
    rw [exec_uartRdData_of_holding w (by rw [hrx, hcell]), hrx, respondRegister_eq]
    rfl
  case byte =>
    have hrx := tryRx_byte hempty hans
    have hcell : (pullUsed s).rxCell = .empty := hempty
    rw [exec_uartRdData_of_holding w (by rw [hrx, setCell_rxCell]), hrx, setCell_setCell, setCell_of_rxCell hcell,
      respondRegister_eq]
    rfl
  case wouldBlock =>
    have hrx := tryRx_wouldBlock hempty hans
    rw [exec_uartRdData_of_empty w (by rw [hrx, pullUsed_rxCell, hempty]), hrx, respondRegister_eq]
    rfl
  case error =>
    have hrx := tryRx_error hempty hans
    rw [exec_uartRdData_of_empty w (by rw [hrx, raise_rxCell, pullUsed_rxCell, hempty]), hrx, respondRegister_eq]
    rfl

theorem exec_uartWrData (w : Width) (v : Half) (s : State) :
    exec (.uartWrData w v) s = .next (respond .none (hostEmit (txTranslate (writtenByte v)) s)) := rfl

/-- What is transmitted for a written value: its low byte, with `TX_EOL` as the host newline (41_uart.md R134). -/
theorem txTranslate_writtenByte (v : Half) :
    txTranslate (writtenByte v) = if v.extractLsb' 0 8 = 0x8A then Config.hostNl else v.extractLsb' 0 8 := rfl

theorem respond_hostEmit_eq (r : Response) (b : Byte) (s : State) :
    respond r (hostEmit b s) = { s with out := s.out ++ [b], result := r } := rfl

/-- Settles O29: the one emitted byte is the translated low byte, at both widths. -/
theorem dataWriteEmitsOneByte : Obligations.DataWriteEmitsOneByte := by
  intro w v s
  rw [exec_uartWrData, respond_hostEmit_eq, txTranslate_writtenByte]

theorem exec_uartWrCtrl (w : Width) (v : Half) (s : State) :
    exec (.uartWrCtrl w v) s = .next (sinkWrite .uartCtrl s.params.uartCtrl w v s) := rfl

theorem exec_uartWrBaud (w : Width) (v : Half) (s : State) :
    exec (.uartWrBaud w v) s = .next (sinkWrite .uartBaud s.params.uartBaud w v s) := rfl

/-- Settles O30: both operations are sink writes, and a sink write changes the log and the response only. -/
theorem uartControlWritesOnlyLog : Obligations.UartControlWritesOnlyLog := by
  intro w v s
  constructor
  · rw [exec_uartWrCtrl, sinkWrite_eq]
  · rw [exec_uartWrBaud, sinkWrite_eq]

end Sys2Proof.Proofs

namespace Sys2Proof.Proofs

open Sys2Proof Sys2Proof.Machine

/-! The two counter/timer write sinks, each operation through what a sink write does (43_timer.md R160, R161). -/

theorem exec_ctcWrData (w : Width) (v : Half) (s : State) :
    exec (.ctcWrData w v) s = .next (sinkWrite .ctcData s.params.ctcData w v s) := rfl

theorem exec_ctcWrCtrl (w : Width) (v : Half) (s : State) :
    exec (.ctcWrCtrl w v) s = .next (sinkWrite .ctcCtrl s.params.ctcCtrl w v s) := rfl

/-- Settles O40: neither address keeps byte-sequencing state, since each write is a sink write at its own port. -/
theorem ctcWritesOnlyLog : Obligations.CtcWritesOnlyLog := by
  intro w v s
  constructor
  · rw [exec_ctcWrData, sinkWrite_eq]
  · rw [exec_ctcWrCtrl, sinkWrite_eq]

end Sys2Proof.Proofs

namespace Sys2Proof.Proofs

open Sys2Proof Sys2Proof.Machine

/-! The sense-switch port: its read is a register read of a constant (44_sense_switch.md R170). -/

theorem exec_swRd (w : Width) (s : State) :
    exec (.swRd w) s = .next (respondRegister w Config.senseValue s) := rfl

/-- Settles O41: no part of the state enters the byte read, and a register read changes the response and the draws only. -/
theorem switchReadIsConstant : Obligations.SwitchReadIsConstant := by
  intro w s
  rw [exec_swRd, respondRegister_eq, Config.senseValue]

end Sys2Proof.Proofs

namespace Sys2Proof.Proofs

open Sys2Proof Sys2Proof.Machine

/-! The event `KillSignal`: where it is enabled, and what it does there (60_exceptions.md R188). -/

/-- A step whose input is an event takes that event, in the phase the state has. -/
theorem step_event {s : State} {e : Event} {rest : List BusInput} (h : s.bus = .event e :: rest) :
    step s = takeEvent e { s with bus := rest } :=
  step_cons h

theorem takeEvent_killSignal_of_stopRequested {s : State} (h : s.phase = .stopRequested) :
    takeEvent .killSignal s = .next (setPhase .terminated s) := by
  simp [takeEvent, h]

theorem takeEvent_killSignal_of_not_stopRequested {s : State} (h : s.phase ≠ .stopRequested) :
    takeEvent .killSignal s = .fault (.eventNotEnabled .killSignal) := by
  cases hp : s.phase with
  | stopRequested => exact absurd hp h
  | running | terminated => simp [takeEvent, hp]

/-- Settles O21: where `KillSignal` is enabled the step sets the phase, and in the two other phases it faults. -/
theorem killSignalOnlySetsThePhase : Obligations.KillSignalOnlySetsThePhase := by
  intro s rest hbus
  rw [step_event hbus]
  refine ⟨fun hstop => ?enabled, fun hstop t hnext => ?notEnabled⟩
  case enabled =>
    rw [takeEvent_killSignal_of_stopRequested (s := { s with bus := rest }) hstop]
    rfl
  case notEnabled =>
    rw [takeEvent_killSignal_of_not_stopRequested (s := { s with bus := rest }) hstop] at hnext
    cases hnext

end Sys2Proof.Proofs

namespace Sys2Proof.Proofs

open Sys2Proof Sys2Proof.Machine

/-! The power-on image: its sizes, where its bytes are listed, and what the first one-byte memory read answers
(70_reset_and_hazards.md R210, R211). -/

theorem romSizeOf_bytes (size : RomSize) : romSizeOf size.bytes = some size := by
  cases size <;> rfl

theorem exists_romSize_bytes {n : Nat} (h : n = 2048 ∨ n = 4096) : ∃ size : RomSize, size.bytes = n := by
  obtain rfl | rfl := h
  · exact ⟨.kib2, rfl⟩
  · exact ⟨.kib4, rfl⟩

theorem romSizeOf_eq_none {n : Nat} (h2 : n ≠ 2048) (h4 : n ≠ 4096) : romSizeOf n = none := by
  simp [romSizeOf, RomSize.bytes, h2, h4]

/-- An accepted image is listed from its lowest address up; the rest is the reset state under the parameters. -/
theorem powerOn_of_length {img : List Byte} (p : Params) (h : img.length = 2048 ∨ img.length = 4096) :
    powerOn p img =
      some { State.reset with params := p, mem := cellsFrom (Config.topOfSpace - img.length) img } := by
  obtain ⟨size, hsize⟩ := exists_romSize_bytes h
  rw [powerOn, ← hsize, romSizeOf_bytes]
  rfl

theorem powerOn_eq_none {img : List Byte} (p : Params) (h2 : img.length ≠ 2048) (h4 : img.length ≠ 4096) :
    powerOn p img = none := by
  rw [powerOn, romSizeOf_eq_none h2 h4]

/-- The byte listed `k` above the start of a block is its `k`-th. -/
theorem read_cellsFrom_add (img : List Byte) (base k : Nat) : (cellsFrom base img).read (base + k) = img[k]? := by
  rw [read_cellsFrom, if_pos (Nat.le_add_right base k), Nat.add_sub_cancel_left]

/-- Outside its addresses a block lists nothing. -/
theorem read_cellsFrom_outside {img : List Byte} {base x : Nat} (h : x < base ∨ base + img.length ≤ x) :
    (cellsFrom base img).read x = none := by
  rw [read_cellsFrom]
  obtain hlow | hhigh := h
  · rw [if_neg (by omega)]
  · rw [if_pos (by omega), List.getElem?_eq_none (by omega)]

/-- An address inside the 20-bit space is forwarded as it is (20_memory.md R60). -/
theorem forwardAddr_toNat_of_lt {a : BusAddr} (h : a.toNat < Config.topOfSpace) : (forwardAddr a).toNat = a.toNat :=
  (forwardAddr_toNat a).trans (Nat.mod_eq_of_lt h)

theorem exec_memRd (a : BusAddr) (w : Width) (s : State) :
    exec (.memRd a w) s = .next (respondMemory w (forwardAddr a) s) := rfl

/-- Before any call of the memory, a one-byte read of a listed byte answers it, whichever memory it is
(70_reset_and_hazards.md R211). -/
theorem respondMemory_result_of_listed {a : MemAddr} {s : State} {b : Byte} (hcalls : s.memCalls = [])
    (hb : s.mem.read a.toNat = some b) : (respondMemory .w8 a s).result = .byte b := by
  cases hm : s.params.memory with
  | flat =>
    rw [respondMemory_flat _ _ hm, callMem_result, respondFlat_w8, byteOrDraw, hb]
    rfl
  | external =>
    have himg : imageByte .w8 a s = some b := (imageByte_powerOn hcalls).trans hb
    rw [respondMemory_image hm himg, memoryResponse, extractLsb'_setWidth_byte]

/-- Settles O58: at power-on the memory is the image's block below the top and no call has been made, so a read of the
memory, of either instantiation, is a read of that block. -/
theorem imageOccupiesTheTopOfMemory : Obligations.ImageOccupiesTheTopOfMemory := by
  intro p img
  refine ⟨fun hlen => ⟨_, powerOn_of_length p hlen, rfl, ?inOrder, ?elsewhere, ?memRead⟩, powerOn_eq_none p⟩
  case inOrder => exact fun k _ => read_cellsFrom_add img _ k
  case elsewhere =>
    intro x hx
    exact read_cellsFrom_outside (by rw [Config.topOfSpace]; omega)
  case memRead =>
    intro k b a hk ha
    obtain ⟨hlt, -⟩ := List.getElem?_eq_some_iff.mp hk
    have hfwd : (forwardAddr a).toNat = Config.topOfSpace - img.length + k :=
      (forwardAddr_toNat_of_lt (by rw [Config.topOfSpace]; omega)).trans ha
    refine ⟨_, exec_memRd a .w8 _, respondMemory_result_of_listed rfl ?_⟩
    rw [hfwd, read_cellsFrom_add, hk]

end Sys2Proof.Proofs

namespace Sys2Proof.Proofs

open Sys2Proof Sys2Proof.Machine

/-! Every word without reserved bits is the packed word of five fields, and decoding, the canonical spelling and the encoder
all speak of these fields (30_encoding.md R81, R83). -/

theorem exists_space_bit (b : BitVec 1) : ∃ sp : Space, sp.bit = b := by
  obtain rfl | rfl : b = 0 ∨ b = 1 := by revert b; decide
  · exact ⟨.mem, rfl⟩
  · exact ⟨.io, rfl⟩

theorem exists_dir_bit (b : BitVec 1) : ∃ d : Dir, d.bit = b := by
  obtain rfl | rfl : b = 0 ∨ b = 1 := by revert b; decide
  · exact ⟨.read, rfl⟩
  · exact ⟨.write, rfl⟩

theorem exists_width_bit (b : BitVec 1) : ∃ w : Width, w.bit = b := by
  obtain rfl | rfl : b = 0 ∨ b = 1 := by revert b; decide
  · exact ⟨.w8, rfl⟩
  · exact ⟨.w16, rfl⟩

/-- A word without reserved bits is the packed word of its fields. -/
theorem exists_packFields {T : Packed} (h : T.extractLsb' 51 5 = 0) :
    ∃ sp d w a v, T = packFields sp d w a v := by
  obtain ⟨sp, hsp⟩ := exists_space_bit (T.extractLsb' 50 1)
  obtain ⟨d, hd⟩ := exists_dir_bit (T.extractLsb' 49 1)
  obtain ⟨w, hw⟩ := exists_width_bit (T.extractLsb' 48 1)
  refine ⟨sp, d, w, T.extractLsb' 16 32, T.extractLsb' 0 16, ?_⟩
  rw [packFields, hsp, hd, hw, ← h, BitVec.extractLsb'_append_extractLsb'_eq_extractLsb' (rfl : 51 = 50 + 1),
    BitVec.extractLsb'_append_extractLsb'_eq_extractLsb' (rfl : 50 = 49 + 1),
    BitVec.extractLsb'_append_extractLsb'_eq_extractLsb' (rfl : 49 = 48 + 1),
    BitVec.extractLsb'_append_extractLsb'_eq_extractLsb' (rfl : 48 = 16 + 32),
    BitVec.extractLsb'_append_extractLsb'_eq_extractLsb' (rfl : 16 = 0 + 16)]
  exact BitVec.extractLsb'_eq_self.symm

theorem decodeWord_packFields (p : Params) (sp : Space) (d : Dir) (w : Width) (a : BusAddr) (v : Half) :
    decodeWord p (packFields sp d w a v) = decodeTxn p ⟨sp, d, w.bits, a, v⟩ := by
  rw [decodeWord, unpack_packFields]

theorem decodeWord_of_reserved {p : Params} {T : Packed} (h : T.extractLsb' 51 5 ≠ 0) :
    decodeWord p T = .error (.reservedBits T) := by
  rw [decodeWord, unpack, if_neg h]

/-- The value in the canonical spelling of a transaction: 0 in a read, the operand in a write (30_encoding.md R81). -/
def spelledValue : Dir → Width → Half → Half
  | .read, _, _ => 0
  | .write, w, v => operandValue w v

/-- The fields above the value stay when another value is spelled. -/
theorem packFields_high_append (sp : Space) (d : Dir) (w : Width) (a : BusAddr) (v x : Half) :
    (packFields sp d w a v).extractLsb' 16 40 ++ x = packFields sp d w a x := by
  have h : (packFields sp d w a v).extractLsb' 16 40 = (0 : BitVec 5) ++ sp.bit ++ d.bit ++ w.bit ++ a :=
    BitVec.extractLsb'_append_eq_left
  rw [h]
  rfl

theorem canonicalWord_packFields (sp : Space) (d : Dir) (w : Width) (a : BusAddr) (v : Half) :
    canonicalWord (packFields sp d w a v) = packFields sp d w a (spelledValue d w v) := by
  rw [canonicalWord, packFields_dir, packFields_width]
  cases d with
  | read => exact packFields_high_append _ _ _ _ _ _
  | write =>
    cases w with
    | w8 =>
      have hlow : (packFields sp .write .w8 a v).extractLsb' 0 8 = v.extractLsb' 0 8 := by
        rw [← BitVec.extractLsb'_extractLsb'_of_le (len' := 16) (by decide), packFields_value]
      have hvalue : (0 : BitVec 8) ++ v.extractLsb' 0 8 = operandValue .w8 v := by
        rw [operandValue, BitVec.setWidth_eq_append (by decide)]
        rfl
      rw [hlow, BitVec.append_assoc, hvalue]
      exact packFields_high_append _ _ _ _ _ _
    | w16 => rfl

/-! The port map, address by address (30_encoding.md R83). -/

theorem params_wf_iff (p : Params) :
    p.wf = true ↔ p.uartData ≠ p.uartStatus ∧ p.uartData ≠ p.sense ∧ p.uartStatus ≠ p.sense ∧ p.uartData ∉ p.sinkPorts := by
  simp only [Params.wf, Bool.and_eq_true, decide_eq_true_eq, and_assoc]

theorem mem_readPorts {p : Params} {a : BusAddr} :
    a ∈ p.readPorts ↔ a = p.uartData ∨ a = p.uartStatus ∨ a = p.sense := by
  simp [Params.readPorts]

theorem mem_writePorts {p : Params} {a : BusAddr} : a ∈ p.writePorts ↔ a = p.uartData ∨ a ∈ p.sinkPorts :=
  List.mem_cons

theorem decodeTxn_ioRead (p : Params) (w : Width) (a : BusAddr) (v : Half) :
    decodeTxn p ⟨.io, .read, w.bits, a, v⟩ = .ok (classifyIoRead p a w) :=
  decodeTxn_width _ _ w a v p

theorem decodeTxn_ioWrite (p : Params) (w : Width) (a : BusAddr) (v : Half) :
    decodeTxn p ⟨.io, .write, w.bits, a, v⟩ = .ok (classifyIoWrite p a w (operandValue w v)) :=
  decodeTxn_width _ _ w a v p

/-- Everything an `io` read can select. -/
theorem classifyIoRead_cases (p : Params) (a : BusAddr) (w : Width) :
    (a = p.uartData ∧ classifyIoRead p a w = .uartRdData w) ∨
    (a ≠ p.uartData ∧ a = p.uartStatus ∧ classifyIoRead p a w = .uartRdStatus w) ∨
    (a ≠ p.uartData ∧ a ≠ p.uartStatus ∧ a = p.sense ∧ classifyIoRead p a w = .swRd w) ∨
    (a ∉ p.readPorts ∧ classifyIoRead p a w = .ioRdUnhandled a w) := by
  simp only [classifyIoRead, mem_readPorts]
  repeat' split
  all_goals simp_all

/-- Everything an `io` write can select. -/
theorem classifyIoWrite_cases (p : Params) (a : BusAddr) (w : Width) (v : Half) :
    (a = p.uartData ∧ classifyIoWrite p a w v = .uartWrData w v) ∨
    (a ≠ p.uartData ∧ a ∈ p.sinkPorts ∧ (classifyIoWrite p a w v).isSink = true) ∨
    (a ∉ p.writePorts ∧ classifyIoWrite p a w v = .ioWrUnhandled a w v) := by
  simp only [classifyIoWrite, mem_writePorts, Params.sinkPorts]
  repeat' split
  all_goals simp_all [Instr.isSink]

/-! Classification against well-formedness and the encoder. -/

theorem operandValue_idem (w : Width) (v : Half) : operandValue w (operandValue w v) = operandValue w v :=
  operandValue_of_fits (valueFits_operandValue w v)

/-- Only the spelled value takes part in decoding. -/
theorem classify_spelledValue (p : Params) (sp : Space) (d : Dir) (w : Width) (a : BusAddr) (v : Half) (n : Nat) :
    classify p ⟨sp, d, n, a, spelledValue d w v⟩ w = classify p ⟨sp, d, n, a, v⟩ w := by
  cases d with
  | read => cases sp <;> rfl
  | write => cases sp <;> simp [classify, spelledValue, operandValue_idem]

@[simp] theorem reachedAfter_iff (before : List BusAddr) (a : BusAddr) : reachedAfter before a = true ↔ a ∉ before := by
  simp [reachedAfter]

/-- What decodes is well formed. -/
theorem wellFormed_classify (p : Params) (t : Txn) (w : Width) : WellFormed p (classify p t w) = true := by
  obtain ⟨sp, d, n, a, v⟩ := t
  have hfits := valueFits_operandValue w v
  cases sp <;> cases d
  case mem.read => rfl
  case mem.write => exact hfits
  case io.read =>
    have hread : classify p ⟨.io, .read, n, a, v⟩ w = classifyIoRead p a w := rfl
    obtain ⟨-, e⟩ | ⟨hd, rfl, e⟩ | ⟨hd, hs, rfl, e⟩ | ⟨hun, e⟩ := classifyIoRead_cases p a w <;> rw [hread, e]
    · rfl
    · simpa [WellFormed] using hd
    · simp [WellFormed, hd, hs]
    · simpa [WellFormed] using hun
  case io.write =>
    simp only [classify, classifyIoWrite]
    repeat' split
    all_goals simp_all [WellFormed, Params.writePorts, Params.sinkPorts]

theorem encode_classify (p : Params) (sp : Space) (d : Dir) (w : Width) (a : BusAddr) (v : Half) (n : Nat) :
    encode p (classify p ⟨sp, d, n, a, v⟩ w) = packFields sp d w a (spelledValue d w v) := by
  cases sp <;> cases d
  case mem.read | mem.write => rfl
  case io.read =>
    obtain ⟨rfl, e⟩ | ⟨-, rfl, e⟩ | ⟨-, -, rfl, e⟩ | ⟨-, e⟩ := classifyIoRead_cases p a w <;> exact congrArg (encode p) e
  case io.write =>
    simp only [classify, classifyIoWrite]
    repeat' split
    all_goals simp_all [encode, spelledValue]

/-- Settles O2: a word that decodes has no reserved bits, so it is the packed word of its fields, and the decoded operation
is what `classify` makes of these. -/
theorem encodeOfDecode : Obligations.EncodeOfDecode := by
  intro p T i h
  by_cases hres : T.extractLsb' 51 5 = 0
  · obtain ⟨sp, d, w, a, v, rfl⟩ := exists_packFields hres
    rw [decodeWord_packFields, decodeTxn_width] at h
    cases h
    rw [encode_classify, canonicalWord_packFields]
    exact ⟨wellFormed_classify p _ w, rfl⟩
  · rw [decodeWord_of_reserved hres] at h
    cases h

/-- Settles O1: each operation's packed word carries its own port and a value that fits, and the comparisons before its port
fail. -/
theorem decodeOfEncode : Obligations.DecodeOfEncode := by
  intro p i h
  cases i with
  | memRd a w | uartRdData w =>
    simp [encode, decodeWord_packFields, decodeTxn_width, classify, classifyIoRead]
  | memWr a w v | uartWrData w v =>
    have hfits : valueFits w v = true := h
    simp [encode, decodeWord_packFields, decodeTxn_width, classify, classifyIoWrite, operandValue_of_fits hfits]
  | uartRdStatus w | swRd w | ioRdUnhandled a w =>
    simp only [WellFormed, reachedAfter_iff, Params.readPorts, List.mem_cons, not_or] at h
    simp [encode, decodeWord_packFields, decodeTxn_width, classify, classifyIoRead, h]
  | uartWrCtrl w v | uartWrBaud w v | picWrMCmd w v | picWrMData w v | picWrSCmd w v | picWrSData w v | ctcWrData w v
  | ctcWrCtrl w v | ioWrUnhandled a w v =>
    simp only [WellFormed, Bool.and_eq_true] at h
    obtain ⟨hfits, hport⟩ := h
    simp only [reachedAfter_iff, Params.writePorts, Params.sinkPorts, List.take, List.mem_cons, not_or] at hport
    simp [encode, decodeWord_packFields, decodeTxn_width, classify, classifyIoWrite, operandValue_of_fits hfits, hport]

/-- Settles O3: the canonical spelling keeps the fields and spells the value that decoding uses. -/
theorem ignoredBitsDoNotMatter : Obligations.IgnoredBitsDoNotMatter := by
  intro p T hres
  obtain ⟨sp, d, w, a, v, rfl⟩ := exists_packFields hres
  rw [canonicalWord_packFields, decodeWord_packFields, decodeWord_packFields, decodeTxn_width, decodeTxn_width,
    classify_spelledValue]

/-- Settles O7: the packed word spells the tuple. -/
theorem packedWordAndTupleAgree : Obligations.PackedWordAndTupleAgree := decodeWord_packFields

/-- Settles O5: a word without reserved bits is a packed word of fields, which decodes; any other is refused. -/
theorem wordsWithReservedBitsHaveNoMeaning : Obligations.WordsWithReservedBitsHaveNoMeaning := by
  intro p T
  refine ⟨⟨fun ⟨i, hi⟩ => ?_, fun hres => ?_⟩, decodeWord_of_reserved⟩
  · by_contra hres
    rw [decodeWord_of_reserved hres] at hi
    cases hi
  · obtain ⟨sp, d, w, a, v, rfl⟩ := exists_packFields hres
    rw [decodeWord_packFields, decodeTxn_width]
    exact ⟨_, rfl⟩

theorem decodeTxn_of_badWidth {p : Params} {t : Txn} (h8 : t.width ≠ 8) (h16 : t.width ≠ 16) :
    decodeTxn p t = .error (.badWidth t.width) := by
  simp [decodeTxn, widthOf, h8, h16]

theorem exists_bits_eq {n : Nat} (h : n = 8 ∨ n = 16) : ∃ w : Width, n = w.bits := by
  obtain rfl | rfl := h
  · exact ⟨.w8, rfl⟩
  · exact ⟨.w16, rfl⟩

/-- Settles O6: the two widths with a meaning are those of `Width`, and a tuple of one of them is classified. -/
theorem tuplesOfOtherWidthsHaveNoMeaning : Obligations.TuplesOfOtherWidthsHaveNoMeaning := by
  intro p t
  refine ⟨⟨fun ⟨i, hi⟩ => ?_, fun hwidth => ?_⟩, decodeTxn_of_badWidth⟩
  · by_contra hno
    rw [decodeTxn_of_badWidth (fun h => hno (.inl h)) (fun h => hno (.inr h))] at hi
    cases hi
  · obtain ⟨sp, d, n, a, v⟩ := t
    obtain ⟨w, rfl⟩ := exists_bits_eq hwidth
    exact ⟨_, decodeTxn_width sp d w a v p⟩

/-- Settles O4: the decoder evaluates each written-out word. -/
theorem writtenOutWordsDecode : Obligations.WrittenOutWordsDecode := by
  unfold Obligations.WrittenOutWordsDecode
  decide

/-- Settles O11: the `mem` branches of `classify` compare no address. -/
theorem memoryAccessesAreNeverPorts : Obligations.MemoryAccessesAreNeverPorts := by
  intro p w a v
  exact ⟨decodeTxn_width _ _ w a v p, decodeTxn_width _ _ w a v p⟩

/-! The `io` map as the statements put it (30_encoding.md R83). -/

/-- Settles O8: with the read addresses distinct, each case of the `io` read branch meets its own clause only. -/
theorem ioReadsFollowTheMap : Obligations.IoReadsFollowTheMap := by
  intro p w a v hwf
  obtain ⟨hds, hdw, hsw, -⟩ := (params_wf_iff p).mp hwf
  rw [decodeTxn_ioRead]
  obtain ⟨rfl, e⟩ | ⟨hd, rfl, e⟩ | ⟨hd, hs, rfl, e⟩ | ⟨hun, e⟩ := classifyIoRead_cases p a w <;> rw [e]
  · simp [mem_readPorts, hds, hdw]
  · simp [mem_readPorts, hd, hsw]
  · simp [mem_readPorts, hd, hs]
  · simp only [mem_readPorts, not_or] at hun
    simp [mem_readPorts, hun]

/-- Settles O9: the data address is no sink, so each case of the `io` write branch meets its own clause only. -/
theorem ioWritesFollowTheMap : Obligations.IoWritesFollowTheMap := by
  intro p w a v hwf
  obtain ⟨-, -, -, hdata⟩ := (params_wf_iff p).mp hwf
  rw [decodeTxn_ioWrite]
  obtain ⟨rfl, e⟩ | ⟨hd, hsink, e⟩ | ⟨hun, e⟩ := classifyIoWrite_cases p a w (operandValue w v)
  · simp [e, mem_writePorts, hdata, Instr.isSink]
  · cases hi : classifyIoWrite p a w (operandValue w v) <;> simp_all [mem_writePorts, Instr.isSink]
  · simp only [mem_writePorts, not_or] at hun
    simp [e, mem_writePorts, hun, Instr.isSink]

theorem classifyIoRead_unclaimed {p : Params} {a : BusAddr} (h : a ∉ p.readPorts) (w : Width) :
    classifyIoRead p a w = .ioRdUnhandled a w := by
  simp only [mem_readPorts, not_or] at h
  simp [classifyIoRead, h]

theorem classifyIoWrite_unclaimed {p : Params} {a : BusAddr} (h : a ∉ p.writePorts) (w : Width) (v : Half) :
    classifyIoWrite p a w v = .ioWrUnhandled a w v := by
  simp only [Params.writePorts, Params.sinkPorts, List.mem_cons, not_or] at h
  simp [classifyIoWrite, h]

/-- Settles O12: an address that no register claims in its direction falls through every comparison. -/
theorem wrongDirectionIsUnhandled : Obligations.WrongDirectionIsUnhandled := by
  intro p w v
  refine ⟨fun a _ hun => ?_, fun hun => ?_, fun hun => ?_⟩
  · rw [decodeTxn_ioRead, classifyIoRead_unclaimed hun]
  · rw [decodeTxn_ioWrite, classifyIoWrite_unclaimed hun]
  · rw [decodeTxn_ioWrite, classifyIoWrite_unclaimed hun]

/-- The word of a well-formed write to a port decodes to it, whatever its ignored value bits. -/
theorem decodeTxn_ioWrite_of_wellFormed {p : Params} {i : Instr} {w : Width} {a : BusAddr} {v : Half}
    (hi : WellFormed p i = true) (he : encode p i = packFields .io .write w a (operandValue w v)) :
    decodeTxn p ⟨.io, .write, w.bits, a, v⟩ = .ok i := by
  have h := decodeOfEncode p i hi
  rw [he, decodeWord_packFields, decodeTxn_ioWrite, operandValue_idem] at h
  rwa [decodeTxn_ioWrite]

/-- Among distinct ports none is taken by the comparisons before its own. -/
theorem reachedAfter_take_of_nodup {ports : List BusAddr} (h : ports.Nodup) (k : Nat) (hk : k < ports.length) :
    reachedAfter (ports.take k) ports[k] = true := by
  rw [reachedAfter_iff]
  intro hmem
  obtain ⟨j, hj, e⟩ := List.mem_take_iff_getElem.mp hmem
  have hjk := (List.Nodup.getElem_inj_iff h).mp e
  omega

/-- Settles O10: with all write addresses distinct, each sink's operation is well formed, so the word of its port decodes to
it. -/
theorem distinctSinkPortsSelectTheirOperation : Obligations.DistinctSinkPortsSelectTheirOperation := by
  intro p w v hwf hsinks
  obtain ⟨-, -, -, hdata⟩ := (params_wf_iff p).mp hwf
  have hports : p.writePorts.Nodup := List.nodup_cons.mpr ⟨hdata, hsinks⟩
  have hreached (k : Nat) (hk : k < 9) := reachedAfter_take_of_nodup hports k hk
  have hsink (k : Nat) (hk : k < 9) := Bool.and_eq_true_iff.mpr ⟨valueFits_operandValue w v, hreached k hk⟩
  exact ⟨decodeTxn_ioWrite_of_wellFormed (hsink 1 (by decide)) rfl,
    decodeTxn_ioWrite_of_wellFormed (hsink 2 (by decide)) rfl,
    decodeTxn_ioWrite_of_wellFormed (hsink 3 (by decide)) rfl,
    decodeTxn_ioWrite_of_wellFormed (hsink 4 (by decide)) rfl,
    decodeTxn_ioWrite_of_wellFormed (hsink 5 (by decide)) rfl,
    decodeTxn_ioWrite_of_wellFormed (hsink 6 (by decide)) rfl,
    decodeTxn_ioWrite_of_wellFormed (hsink 7 (by decide)) rfl,
    decodeTxn_ioWrite_of_wellFormed (hsink 8 (by decide)) rfl⟩

end Sys2Proof.Proofs

namespace Sys2Proof.Proofs

open Sys2Proof Sys2Proof.Machine

/-! What an operation does, component by component of the state: what it logs, the causes it raises, the answers it pulls, the
memory it leaves and the call it makes, each a function of the operation and of what the state holds
(10_state.md R21 to R25, R30; 41_uart.md R131 to R134; 40_dispatch.md R112 to R117). -/

/-- The host's answers that `TRYRX` pulls: one, exactly when the cell is empty (41_uart.md R131). -/
def rxAnswers (s : State) : List HostAnswer :=
  match s.rxCell with
  | .holding _ => []
  | .empty => [nextAnswer s]

/-- The causes a pulled answer raises (60_exceptions.md R182). -/
def answerCauses : HostAnswer → List Cause
  | .byte _ | .wouldBlock => []
  | .error => [.hostInputError]

/-- The host's answers that an operation pulls. -/
def answersPulled (i : Instr) (s : State) : List HostAnswer := if i.isUartRead then rxAnswers s else []

/-- The causes an operation raises of its own (60_exceptions.md R180 to R182). -/
def ownCauses (i : Instr) (s : State) : List Cause :=
  match i with
  | .uartRdData _ | .uartRdStatus _ => (rxAnswers s).flatMap answerCauses
  | .ioRdUnhandled _ _ => [.unhandledRead]
  | .ioWrUnhandled _ _ _ => [.unhandledWrite]
  | .swRd _ | .uartWrData _ _ | .uartWrCtrl _ _ | .uartWrBaud _ _ | .picWrMCmd _ _ | .picWrMData _ _ | .picWrSCmd _ _
  | .picWrSData _ _ | .ctcWrData _ _ | .ctcWrCtrl _ _ | .memRd _ _ | .memWr _ _ _ => []

/-- The events an operation logs (10_state.md R25, R30). -/
def loggedBy (p : Params) : Instr → List LogEvent
  | .ioRdUnhandled a w => [.unhandled .read a w none]
  | .ioWrUnhandled a w v => [.unhandled .write a w (some v)]
  | .uartWrCtrl w v => [.accepted .uartCtrl p.uartCtrl w v]
  | .uartWrBaud w v => [.accepted .uartBaud p.uartBaud w v]
  | .picWrMCmd w v => [.accepted .picMCmd p.picMCmd w v]
  | .picWrMData w v => [.accepted .picMData p.picMData w v]
  | .picWrSCmd w v => [.accepted .picSCmd p.picSCmd w v]
  | .picWrSData w v => [.accepted .picSData p.picSData w v]
  | .ctcWrData w v => [.accepted .ctcData p.ctcData w v]
  | .ctcWrCtrl w v => [.accepted .ctcCtrl p.ctcCtrl w v]
  | .uartRdData _ | .uartRdStatus _ | .swRd _ | .uartWrData _ _ | .memRd _ _ | .memWr _ _ _ => []

/-- The memory call an operation makes (40_dispatch.md R116, R117). -/
def callsBy : Instr → List MemCall
  | .memRd a w => [.read (forwardAddr a) w]
  | .memWr a w v => [.write (forwardAddr a) w (operandValue w v)]
  | .uartRdData _ | .uartRdStatus _ | .swRd _ | .ioRdUnhandled _ _ | .uartWrData _ _ | .uartWrCtrl _ _ | .uartWrBaud _ _
  | .picWrMCmd _ _ | .picWrMData _ _ | .picWrSCmd _ _ | .picWrSData _ _ | .ctcWrData _ _ | .ctcWrCtrl _ _
  | .ioWrUnhandled _ _ _ => []

/-- What a memory of either kind keeps of a write (20_memory.md R53, logs 7 and 27). -/
def storedIn (k : MemoryKind) (w : Width) (a : MemAddr) (v : Half) (m : Memory) : Memory :=
  match k, w with
  | .flat, .w8 => m.write a.toNat (writtenByte v)
  | .flat, .w16 => (m.write a.toNat (writtenByte v)).write (a + 1).toNat (v.extractLsb' 8 8)
  | .external, _ => m

/-- The memory an operation leaves. -/
def memAfter (k : MemoryKind) (i : Instr) (m : Memory) : Memory :=
  match i with
  | .memWr a w v => storedIn k w (forwardAddr a) v m
  | .uartRdData _ | .uartRdStatus _ | .swRd _ | .ioRdUnhandled _ _ | .uartWrData _ _ | .uartWrCtrl _ _ | .uartWrBaud _ _
  | .picWrMCmd _ _ | .picWrMData _ _ | .picWrSCmd _ _ | .picWrSData _ _ | .ctcWrData _ _ | .ctcWrCtrl _ _
  | .ioWrUnhandled _ _ _ | .memRd _ _ => m

theorem storeMemory_mem (w : Width) (a : MemAddr) (v : Half) (s : State) :
    (storeMemory w a v s).mem = storedIn s.params.memory w a v s.mem := by
  cases hm : s.params.memory with
  | flat => rw [storeMemory_flat w a v hm]; cases w <;> rfl
  | external => rw [storeMemory_external w a v hm]; cases w <;> rfl

/-! `TRYRX`, component by component. -/

theorem tryRx_hostIn (s : State) : (tryRx s).hostIn = s.hostIn.drop (rxAnswers s).length := by
  obtain ⟨b, hc, h⟩ | ⟨b, hc, -, h⟩ | ⟨hc, -, h⟩ | ⟨hc, -, h⟩ := tryRx_cases s <;> simp [rxAnswers, *]

theorem tryRx_pulls (s : State) : (tryRx s).pulls = s.pulls + (rxAnswers s).length := by
  obtain ⟨b, hc, h⟩ | ⟨b, hc, -, h⟩ | ⟨hc, -, h⟩ | ⟨hc, -, h⟩ := tryRx_cases s <;> simp [rxAnswers, *]

theorem tryRx_haltCauses (s : State) :
    (tryRx s).haltCauses = s.haltCauses ++ (rxAnswers s).flatMap answerCauses := by
  obtain ⟨b, hc, h⟩ | ⟨b, hc, ha, h⟩ | ⟨hc, ha, h⟩ | ⟨hc, ha, h⟩ := tryRx_cases s <;>
    simp [rxAnswers, answerCauses, *]

theorem tryRx_haltReq (s : State) :
    (tryRx s).haltReq = (s.haltReq || !((rxAnswers s).flatMap answerCauses).isEmpty) := by
  obtain ⟨b, hc, h⟩ | ⟨b, hc, ha, h⟩ | ⟨hc, ha, h⟩ | ⟨hc, ha, h⟩ := tryRx_cases s <;>
    simp [rxAnswers, answerCauses, *]

/-- `TRYRX` puts the byte it receives, if any, behind what the cell holds. -/
theorem tryRx_cellBytes (s : State) :
    cellBytes (tryRx s).rxCell = cellBytes s.rxCell ++ receivedFrom (rxAnswers s) := by
  obtain ⟨b, hc, h⟩ | ⟨b, hc, ha, h⟩ | ⟨hc, ha, h⟩ | ⟨hc, ha, h⟩ := tryRx_cases s <;>
    simp [rxAnswers, receivedFrom, cellBytes, rxTranslate, *]

/-- A data read hands over what `TRYRX` leaves in the cell (41_uart.md R132). -/
theorem handedBy_uartRdData (w : Width) (s : State) :
    handedBy (.uartRdData w) s = cellBytes s.rxCell ++ receivedFrom (rxAnswers s) := by
  cases hc : s.rxCell <;> simp [handedBy, rxAnswers, cellBytes, receivedFrom, hc]

theorem handedBy_uartRdStatus (w : Width) (s : State) : handedBy (.uartRdStatus w) s = [] := rfl

theorem cellBytes_empty : cellBytes .empty = [] := rfl

theorem emittedBy_uartWrData (w : Width) (v : Half) : emittedBy (.uartWrData w v) = [txTranslate (writtenByte v)] := rfl

/-! The operation. -/

/-- `t` is `s` after the operation `i`: every component that a statement speaks of, but for the response and the counts of free
values. -/
structure Performed (i : Instr) (s t : State) : Prop where
  phase : t.phase = s.phase
  params : t.params = s.params
  bus : t.bus = s.bus
  out : t.out = s.out ++ emittedBy i
  log : t.log = s.log ++ loggedBy s.params i
  haltReq : t.haltReq = (s.haltReq || !(ownCauses i s).isEmpty)
  haltCauses : t.haltCauses = s.haltCauses ++ ownCauses i s
  mem : t.mem = memAfter s.params.memory i s.mem
  memCalls : t.memCalls = s.memCalls ++ callsBy i
  hostIn : t.hostIn = s.hostIn.drop (answersPulled i s).length
  pulls : t.pulls = s.pulls + (answersPulled i s).length
  cell : cellBytes s.rxCell ++ receivedFrom (answersPulled i s) = handedBy i s ++ cellBytes t.rxCell

theorem exec_performed {i : Instr} {s t : State} (h : exec i s = .next t) : Performed i s t := by
  cases i with
  | uartRdData w | uartRdStatus w =>
    cases h
    obtain ⟨hphase, hout, hlog, hmem, hparams, -, hbus, -, hcalls, -⟩ := tryRx_frame s
    constructor <;> simp [respondRegister_eq, emittedBy, Instr.isUartRead, tryRx_hostIn, tryRx_pulls, tryRx_haltCauses,
      tryRx_haltReq, tryRx_cellBytes, handedBy_uartRdData, handedBy_uartRdStatus, cellBytes_empty, answersPulled, ownCauses,
      loggedBy, callsBy, memAfter, *]
  | swRd w | ioRdUnhandled a w =>
    cases h
    constructor <;> simp [respondRegister_eq, emittedBy, handedBy, Instr.isUartRead, receivedFrom, answersPulled, ownCauses,
      loggedBy, callsBy, memAfter]
  | memRd a w =>
    obtain ⟨r, d, q, e⟩ := respondMemory_frame w (forwardAddr a) s
    rw [exec_memRd, e] at h
    cases h
    constructor <;> simp [emittedBy, handedBy, Instr.isUartRead, receivedFrom, answersPulled, ownCauses,
      loggedBy, callsBy, memAfter]
  | memWr a w v =>
    have hmem := storeMemory_mem w (forwardAddr a) v s
    cases h
    rw [storeMemory_eq]
    constructor <;> simp [emittedBy, handedBy, Instr.isUartRead, receivedFrom, answersPulled, ownCauses,
      loggedBy, callsBy, memAfter, hmem]
  | uartWrData w v =>
    cases h
    constructor <;> simp [emittedBy_uartWrData, handedBy, Instr.isUartRead, receivedFrom, answersPulled, ownCauses,
      loggedBy, callsBy, memAfter]
  | uartWrCtrl w v | uartWrBaud w v | picWrMCmd w v | picWrMData w v | picWrSCmd w v
  | picWrSData w v | ctcWrData w v | ctcWrCtrl w v | ioWrUnhandled a w v =>
    cases h
    constructor <;> simp [sinkWrite, emittedBy, handedBy, Instr.isUartRead, receivedFrom, answersPulled, ownCauses,
      loggedBy, callsBy, memAfter]

end Sys2Proof.Proofs

namespace Sys2Proof.Proofs

open Sys2Proof Sys2Proof.Machine

/-! What a step does, component by component, from what its operation does (40_dispatch.md R110, R111). -/

/-- The operation the next input asks for. -/
def inputOp (s : State) : Option Instr := s.bus.head?.bind (opOf s.params)

/-- The operation the next step performs: none when the decoder returns early (40_dispatch.md R110). -/
def performedOp (s : State) : Option Instr := if returnsEarly s then none else inputOp s

/-- The cause the stop check appends (40_dispatch.md R111). -/
def stopCauses (s : State) : List Cause := if s.phase = .stopRequested then [.stopRequested] else []

/-- The causes the next step appends: the stop check's before the operation's own (60_exceptions.md R191). -/
def stepCauses (s : State) : List Cause :=
  (inputOp s).elim [] (fun _ => stopCauses s) ++ (performedOp s).elim [] (ownCauses · s)

/-- The host's answers that the next step pulls. -/
def answersPulledNext (s : State) : List HostAnswer := (performedOp s).elim [] (answersPulled · s)

theorem inputOp_cons {s : State} {x : BusInput} {rest : List BusInput} (h : s.bus = x :: rest) :
    inputOp s = opOf s.params x := by
  simp [inputOp, h]

theorem performedOp_of_not_returnsEarly {s : State} (h : returnsEarly s = false) : performedOp s = inputOp s := by
  simp [performedOp, h]

theorem performedOp_of_returnsEarly {s : State} (h : returnsEarly s = true) : performedOp s = none := by
  simp [performedOp, h]

theorem performedOp_of_inputOp_none {s : State} (h : inputOp s = none) : performedOp s = none := by
  simp [performedOp, h]

theorem inputOp_of_performedOp {s : State} {i : Instr} (h : performedOp s = some i) : inputOp s = some i := by
  unfold performedOp at h
  split at h
  · cases h
  · exact h

theorem returnsEarly_of_serviced {s : State} (h : s.params.stopAccessServiced = true) : returnsEarly s = false := by
  simp [returnsEarly, h]

theorem performedOp_of_serviced {s : State} (h : s.params.stopAccessServiced = true) : performedOp s = inputOp s :=
  performedOp_of_not_returnsEarly (returnsEarly_of_serviced h)

theorem returnsEarly_iff (s : State) :
    returnsEarly s = true ↔ s.phase = .stopRequested ∧ s.params.stopAccessServiced = false := by
  simp [returnsEarly]

theorem busTaken_of_cons {s : State} {x : BusInput} {rest : List BusInput} (h : s.bus = x :: rest) :
    busTaken s = { s with bus := rest } := by
  simp [busTaken, h]

theorem busTaken_of_nil {s : State} (h : s.bus = []) : busTaken s = s := by
  cases s
  cases h
  rfl

/-- The early return changes the response and the draws only. -/
theorem respondUnserviced_frame (i : Instr) (s : State) :
    ∃ r d, respondUnserviced i s = { s with result := r, draws := d } := by
  unfold respondUnserviced
  split <;> exact ⟨_, _, rfl⟩

/-- The three kinds of step: no transaction, a transaction that is returned early, an operation performed. -/
theorem step_kinds {s t : State} (h : step s = .next t) :
    (inputOp s = none ∧ ∃ p, s.phase.rank ≤ p.rank ∧ t = setPhase p (busTaken s)) ∨
    (∃ i, inputOp s = some i ∧ returnsEarly s = true ∧ t = respondUnserviced i (stopChk (busTaken s))) ∨
    (∃ i, inputOp s = some i ∧ returnsEarly s = false ∧ exec i (stopChk (busTaken s)) = .next t) := by
  obtain ⟨hb, rfl⟩ | ⟨e, rest, hb, he⟩ | ⟨rest, hb, he⟩ | ⟨x, rest, i, hb, hd, hp, hs, rfl⟩ |
    ⟨x, rest, i, hb, hd, -, hs, hexec⟩ := step_next_cases h
  · exact .inl ⟨by simp [inputOp, hb], t.phase, le_rfl, (busTaken_of_nil hb).symm⟩
  · obtain ⟨p, rfl, hp⟩ := takeEvent_next he
    exact .inl ⟨inputOp_cons hb, p, hp.le, by rw [busTaken_of_cons hb]⟩
  · obtain ⟨-, ⟨-, rfl⟩ | ⟨-, rfl⟩⟩ := atBoundary_next he
    · exact .inl ⟨inputOp_cons hb, .terminated, by cases s.phase <;> decide, by rw [busTaken_of_cons hb]⟩
    · exact .inl ⟨inputOp_cons hb, s.phase, le_rfl, by rw [busTaken_of_cons hb]; rfl⟩
  · exact .inr (.inl ⟨i, (inputOp_cons hb).trans (opOf_of_decodeInput hd), (returnsEarly_iff s).mpr ⟨hp, hs⟩,
      by rw [busTaken_of_cons hb]⟩)
  · refine .inr (.inr ⟨i, (inputOp_cons hb).trans (opOf_of_decodeInput hd), ?_, by rwa [busTaken_of_cons hb]⟩)
    rw [Bool.eq_false_iff, ne_eq, returnsEarly_iff]
    rintro ⟨hstop, hno⟩
    simp [hs hstop] at hno

/-! The stop check changes the halt request and its causes only. -/

@[simp] theorem stopCauses_busTaken (s : State) : stopCauses (busTaken s) = stopCauses s := rfl

theorem stopChk_eq (s : State) :
    stopChk s =
      { s with
        haltReq := s.haltReq || !(stopCauses s).isEmpty
        haltCauses := s.haltCauses ++ stopCauses s } := by
  obtain ⟨hp, h⟩ | ⟨hp, h⟩ := stopChk_cases s <;> simp [h, stopCauses, hp, raise]

@[simp] theorem stopChk_phase (s : State) : (stopChk s).phase = s.phase := by rw [stopChk_eq]
@[simp] theorem stopChk_haltReq (s : State) : (stopChk s).haltReq = (s.haltReq || !(stopCauses s).isEmpty) := by
  rw [stopChk_eq]
@[simp] theorem stopChk_haltCauses (s : State) : (stopChk s).haltCauses = s.haltCauses ++ stopCauses s := by
  rw [stopChk_eq]
@[simp] theorem stopChk_out (s : State) : (stopChk s).out = s.out := by rw [stopChk_eq]
@[simp] theorem stopChk_log (s : State) : (stopChk s).log = s.log := by rw [stopChk_eq]
@[simp] theorem stopChk_mem (s : State) : (stopChk s).mem = s.mem := by rw [stopChk_eq]
@[simp] theorem stopChk_memCalls (s : State) : (stopChk s).memCalls = s.memCalls := by rw [stopChk_eq]
@[simp] theorem stopChk_params (s : State) : (stopChk s).params = s.params := by rw [stopChk_eq]
@[simp] theorem stopChk_bus (s : State) : (stopChk s).bus = s.bus := by rw [stopChk_eq]
@[simp] theorem stopChk_hostIn (s : State) : (stopChk s).hostIn = s.hostIn := by rw [stopChk_eq]
@[simp] theorem stopChk_pulls (s : State) : (stopChk s).pulls = s.pulls := by rw [stopChk_eq]

/-! The stop check and the taking of the input leave what an operation reads of the receive side. -/

@[simp] theorem rxAnswers_stopChk_busTaken (s : State) : rxAnswers (stopChk (busTaken s)) = rxAnswers s := by
  obtain ⟨-, h⟩ | ⟨-, h⟩ := stopChk_cases (busTaken s) <;> rw [h] <;> rfl

@[simp] theorem ownCauses_stopChk_busTaken (i : Instr) (s : State) : ownCauses i (stopChk (busTaken s)) = ownCauses i s := by
  cases i <;> simp [ownCauses]

@[simp] theorem handedBy_stopChk_busTaken (i : Instr) (s : State) : handedBy i (stopChk (busTaken s)) = handedBy i s := by
  obtain ⟨-, h⟩ | ⟨-, h⟩ := stopChk_cases (busTaken s) <;> rw [h] <;> rfl

/-- `t` is `s` one step later: every component that a statement speaks of, but for the response and the counts of free
values. -/
structure Stepped (s t : State) : Prop where
  bus : t.bus = s.bus.tail
  params : t.params = s.params
  phase : s.phase.rank ≤ t.phase.rank
  out : t.out = s.out ++ (performedOp s).elim [] emittedBy
  log : t.log = s.log ++ (performedOp s).elim [] (loggedBy s.params)
  haltReq : t.haltReq = (s.haltReq || !(stepCauses s).isEmpty)
  haltCauses : t.haltCauses = s.haltCauses ++ stepCauses s
  mem : t.mem = (performedOp s).elim s.mem (memAfter s.params.memory · s.mem)
  memCalls : t.memCalls = s.memCalls ++ (performedOp s).elim [] callsBy
  hostIn : t.hostIn = s.hostIn.drop (answersPulledNext s).length
  pulls : t.pulls = s.pulls + (answersPulledNext s).length
  cell : cellBytes s.rxCell ++ receivedFrom (answersPulledNext s) =
    (performedOp s).elim [] (handedBy · s) ++ cellBytes t.rxCell

theorem step_stepped {s t : State} (h : step s = .next t) : Stepped s t := by
  obtain ⟨hnone, p, hp, rfl⟩ | ⟨i, hi, hearly, rfl⟩ | ⟨i, hi, hserviced, hexec⟩ := step_kinds h
  · have hperf := performedOp_of_inputOp_none hnone
    constructor <;> simp [hnone, hperf, stepCauses, answersPulledNext, receivedFrom, hp]
  · have hperf := performedOp_of_returnsEarly hearly
    obtain ⟨r, d, e⟩ := respondUnserviced_frame i (stopChk (busTaken s))
    rw [e]
    constructor <;> simp [hi, hperf, stepCauses, answersPulledNext, receivedFrom]
  · have hperf := (performedOp_of_not_returnsEarly hserviced).trans hi
    obtain ⟨hphase, hparams, hbus, hout, hlog, hreq, hcauses, hmem, hcalls, hhost, hpulls, hcell⟩ := exec_performed hexec
    have hanswers : answersPulled i (stopChk (busTaken s)) = answersPulled i s := by simp [answersPulled]
    rw [hanswers] at hhost hpulls hcell
    rw [ownCauses_stopChk_busTaken] at hreq hcauses
    constructor
    case cell => simpa [answersPulledNext, hperf] using hcell
    case haltReq => cases hstop : stopCauses s <;> simp [hreq, stepCauses, hi, hperf, hstop]
    all_goals simp [stepCauses, answersPulledNext, *]

end Sys2Proof.Proofs

namespace Sys2Proof.Proofs

open Sys2Proof Sys2Proof.Machine

/-! Runs, by one induction on their length. -/

/-- What holds of no step, and of a step followed by a run it holds of, holds of every run. -/
theorem run_induction {R : Nat → State → State → Prop} (zero : ∀ s, R 0 s s)
    (succ : ∀ k s u t, step s = .next u → R k u t → R (k + 1) s t) {k : Nat} {s t : State}
    (h : Host.Core.run Sys2Proof.core k s = .next t) : R k s t := by
  induction k generalizing s with
  | zero =>
    cases h
    exact zero _
  | succ k ih =>
    obtain ⟨u, hstep, hrun⟩ := run_succ_next h
    exact succ k s u t hstep (ih hrun)

theorem later_refl (s : State) : Later s s :=
  ⟨le_rfl, id, List.prefix_rfl, List.prefix_rfl, List.prefix_rfl, List.prefix_rfl, rfl⟩

theorem later_trans {s u t : State} (h : Later s u) (h' : Later u t) : Later s t where
  phase := h.phase.trans h'.phase
  halt := h'.halt ∘ h.halt
  causes := h.causes.trans h'.causes
  out := h.out.trans h'.out
  log := h.log.trans h'.log
  memCalls := h.memCalls.trans h'.memCalls
  params := h'.params.trans h.params

theorem step_later {s t : State} (h : step s = .next t) : Later s t := by
  have hs := step_stepped h
  constructor
  case phase => exact hs.phase
  case halt => simp +contextual [hs.haltReq]
  case causes => exact ⟨_, hs.haltCauses.symm⟩
  case out => exact ⟨_, hs.out.symm⟩
  case log => exact ⟨_, hs.log.symm⟩
  case memCalls => exact ⟨_, hs.memCalls.symm⟩
  case params => exact hs.params

/-- Settles O53: each step only appends and moves forward, and `Later` is a preorder. -/
theorem runsOnlyMoveForward : Obligations.RunsOnlyMoveForward := by
  intro k s t hrun
  exact run_induction (R := fun _ => Later) later_refl
    (fun _ _ _ _ hstep hlater => later_trans (step_later hstep) hlater) hrun

/-! The inputs that a run takes: the first is the one its first step takes, the others are the next run's. -/

theorem take_succ_bus (k : Nat) (s : State) : s.bus.take (k + 1) = s.bus.take 1 ++ s.bus.tail.take k := by
  cases s.bus <;> simp

theorem emittedByInputs_append (p : Params) (xs ys : List BusInput) :
    emittedByInputs p (xs ++ ys) = emittedByInputs p xs ++ emittedByInputs p ys := by
  simp [emittedByInputs]

theorem emittedByInputs_take_one (s : State) :
    emittedByInputs s.params (s.bus.take 1) = (inputOp s).elim [] emittedBy := by
  cases hb : s.bus with
  | nil => simp [inputOp, hb, emittedByInputs]
  | cons x rest => cases hx : opOf s.params x <;> simp [inputOp, hb, emittedByInputs, hx]

/-- Settles O35: a serviced step puts out the bytes of the input it takes. -/
theorem outIsTheDataWritesInOrder : Obligations.OutIsTheDataWritesInOrder := by
  intro k s t hserviced hrun
  refine run_induction (R := fun k s t => s.params.stopAccessServiced = true →
    t.out = s.out ++ emittedByInputs s.params (s.bus.take k)) ?zero ?succ hrun hserviced
  case zero => simp [emittedByInputs]
  case succ =>
    intro k s u t hstep ih hserviced
    have hs := step_stepped hstep
    have hout : u.out = s.out ++ emittedByInputs s.params (s.bus.take 1) := by
      rw [hs.out, performedOp_of_serviced hserviced, emittedByInputs_take_one]
    rw [ih (by rwa [hs.params]), hout, hs.params, hs.bus, List.append_assoc, ← emittedByInputs_append, ← take_succ_bus]

theorem exists_bus_of_inputOp {s : State} {i : Instr} (h : inputOp s = some i) :
    ∃ x rest, s.bus = x :: rest ∧ opOf s.params x = some i := by
  cases hb : s.bus with
  | nil => simp [inputOp, hb] at h
  | cons x rest => exact ⟨x, rest, rfl, (inputOp_cons hb).symm.trans h⟩

/-- A step pulls nothing, or one answer for a UART read. -/
theorem answersPulledNext_cases (s : State) :
    answersPulledNext s = [] ∨
      (answersPulledNext s = [nextAnswer s] ∧ ∃ x rest, s.bus = x :: rest ∧ asksUartRead s.params x = true) := by
  cases hp : performedOp s with
  | none => exact .inl (by simp [answersPulledNext, hp])
  | some i =>
    obtain ⟨x, rest, hb, hx⟩ := exists_bus_of_inputOp (inputOp_of_performedOp hp)
    cases hread : i.isUartRead with
    | false => exact .inl (by simp [answersPulledNext, hp, answersPulled, hread])
    | true =>
      cases hc : s.rxCell with
      | holding b => exact .inl (by simp [answersPulledNext, hp, answersPulled, rxAnswers, hc])
      | empty =>
        exact .inr ⟨by simp [answersPulledNext, hp, answersPulled, rxAnswers, hread, hc], x, rest, hb,
          by simp [asksUartRead, hx, hread]⟩

theorem length_answersPulledNext_le (s : State) :
    (answersPulledNext s).length ≤ ((s.bus.take 1).filter (asksUartRead s.params)).length := by
  obtain h | ⟨h, x, rest, hb, hx⟩ := answersPulledNext_cases s
  · simp [h]
  · simp [h, hb, hx]

/-- Settles O36: a step pulls at most once, and only when the input it takes is a UART read. -/
theorem pullsAreAtMostTheUartReads : Obligations.PullsAreAtMostTheUartReads := by
  intro k s t hrun
  refine run_induction (R := fun k s t => s.pulls ≤ t.pulls ∧
    t.pulls ≤ s.pulls + ((s.bus.take k).filter (asksUartRead s.params)).length) ?zero ?succ hrun
  case zero => simp
  case succ =>
    intro k s u t hstep ⟨hle, hlen⟩
    have hs := step_stepped hstep
    have hone := length_answersPulledNext_le s
    have hpulls := hs.pulls
    rw [hs.bus, hs.params] at hlen
    rw [take_succ_bus, List.filter_append, List.length_append]
    omega

/-! Host bytes -/

theorem receivedFrom_append (xs ys : List HostAnswer) :
    receivedFrom (xs ++ ys) = receivedFrom xs ++ receivedFrom ys := by
  simp [receivedFrom]

theorem handedDuring_succ {k : Nat} {s u : State} (h : step s = .next u) :
    handedDuring (k + 1) s = handedNext s ++ handedDuring k u := by
  simp [handedDuring, h]

theorem handedNext_eq (s : State) : handedNext s = (inputOp s).elim [] (handedBy · s) := by
  cases hb : s.bus with
  | nil => simp [inputOp, hb, handedNext]
  | cons x rest => cases hx : opOf s.params x <;> simp [inputOp, hb, handedNext, hx]

/-- The answers a step pulls are the queued ones, as far as the queue reaches (log 5). -/
theorem answersPulledNext_eq_take {s : State} (h : (answersPulledNext s).length ≤ s.hostIn.length) :
    answersPulledNext s = s.hostIn.take (answersPulledNext s).length := by
  obtain e | ⟨e, -⟩ := answersPulledNext_cases s
  · simp [e]
  · cases hq : s.hostIn with
    | nil => simp [e, hq] at h
    | cons a as => simp [e, nextAnswer, hq]

/-- Settles O34: a step hands over or keeps in the cell what the cell held and what it pulled, and the pulls of a run are
those of its first step and then the others. -/
theorem hostBytesAreHandedOverInOrder : Obligations.HostBytesAreHandedOverInOrder := by
  intro k s t hserviced hrun hqueue
  have hinv := run_induction (R := fun k s t => s.params.stopAccessServiced = true →
    ∃ m, t.pulls = s.pulls + m ∧ (m ≤ s.hostIn.length →
      cellBytes s.rxCell ++ receivedFrom (s.hostIn.take m) = handedDuring k s ++ cellBytes t.rxCell ∧
        t.hostIn = s.hostIn.drop m)) ?zero ?succ hrun hserviced
  case zero => exact fun s _ => ⟨0, rfl, fun _ => by simp [handedDuring, receivedFrom]⟩
  case succ =>
    intro k s u t hstep ih hserviced
    have hs := step_stepped hstep
    obtain ⟨m, hm, hrest⟩ := ih (by rwa [hs.params])
    refine ⟨(answersPulledNext s).length + m, by rw [hm, hs.pulls, Nat.add_assoc], fun hlen => ?_⟩
    obtain ⟨hbytes, hhost⟩ := hrest (by rw [hs.hostIn, List.length_drop]; omega)
    have hcell := hs.cell
    have hpulled := answersPulledNext_eq_take (s := s) (by omega)
    rw [performedOp_of_serviced hserviced, ← handedNext_eq] at hcell
    constructor
    · calc cellBytes s.rxCell ++ receivedFrom (s.hostIn.take ((answersPulledNext s).length + m))
          = (cellBytes s.rxCell ++ receivedFrom (answersPulledNext s)) ++ receivedFrom (u.hostIn.take m) := by
            rw [List.take_add, ← hpulled, receivedFrom_append, hs.hostIn, List.append_assoc]
        _ = handedNext s ++ (cellBytes u.rxCell ++ receivedFrom (u.hostIn.take m)) := by
            rw [hcell, List.append_assoc]
        _ = handedDuring (k + 1) s ++ cellBytes t.rxCell := by
            rw [hbytes, handedDuring_succ hstep, List.append_assoc]
    · rw [hhost, hs.hostIn, List.drop_drop]
  obtain ⟨m, hm, hrest⟩ := hinv
  rw [hm, Nat.add_sub_cancel_left] at hqueue ⊢
  exact hrest hqueue

end Sys2Proof.Proofs

namespace Sys2Proof.Proofs

open Sys2Proof Sys2Proof.Machine

/-! The step, input by input: transactions, events and the boundary (40_dispatch.md R110, R111; 60_exceptions.md R186 to
R189). -/

theorem access_terminated {d : Except Reject Instr} {s : State} (h : s.phase = .terminated) :
    access d s = .fault .runOver := by
  simp [access, h]

theorem access_error {r : Reject} {s : State} (h : s.phase ≠ .terminated) :
    access (.error r) s = .refused (refusalOf r) := by
  cases hp : s.phase with
  | terminated => exact absurd hp h
  | running | stopRequested => simp [access, hp]

theorem access_serviced {i : Instr} {s : State} (h : s.phase ≠ .terminated) (hs : returnsEarly s = false) :
    access (.ok i) s = exec i (stopChk s) := by
  cases hp : s.phase with
  | terminated => exact absurd hp h
  | running | stopRequested => simp [access, hp, hs]

theorem access_unserviced {i : Instr} {s : State} (h : s.phase = .stopRequested)
    (hs : s.params.stopAccessServiced = false) :
    access (.ok i) s = .next (respondUnserviced i (stopChk s)) := by
  simp [access, returnsEarly, h, hs]

/-- A step whose input decodes to `d` is an access to it. -/
theorem step_access {s : State} {x : BusInput} {rest : List BusInput} {d : Except Reject Instr}
    (hb : s.bus = x :: rest) (hd : decodeInput s.params x = some d) : step s = access d { s with bus := rest } := by
  rw [step_cons hb, takeInput_access (s := { s with bus := rest }) hd]

section
variable {s : State} {x : BusInput} {rest : List BusInput} {i : Instr}

/-- A serviced access performs the operation after the stop check. -/
theorem step_serviced (hb : s.bus = x :: rest) (hd : decodeInput s.params x = some (.ok i)) (hp : s.phase ≠ .terminated)
    (hs : returnsEarly s = false) : step s = exec i (stopChk { s with bus := rest }) :=
  (step_access hb hd).trans (access_serviced (s := { s with bus := rest }) hp hs)

/-- An access that is not serviced is returned early after the stop check. -/
theorem step_unserviced (hb : s.bus = x :: rest) (hd : decodeInput s.params x = some (.ok i))
    (hp : s.phase = .stopRequested) (hs : s.params.stopAccessServiced = false) :
    step s = .next (respondUnserviced i (stopChk { s with bus := rest })) :=
  (step_access hb hd).trans (access_unserviced (s := { s with bus := rest }) hp hs)

theorem step_refused {r : Reject} (hb : s.bus = x :: rest) (hd : decodeInput s.params x = some (.error r))
    (hp : s.phase ≠ .terminated) : step s = .refused (refusalOf r) :=
  (step_access hb hd).trans (access_error (s := { s with bus := rest }) hp)

end

/-- Everything an event that is taken can be (60_exceptions.md R187 to R189). -/
theorem takeEvent_cases {e : Event} {s t : State} (h : takeEvent e s = .next t) :
    (e = .stopSignal ∧ s.phase = .running ∧ t = setPhase .stopRequested s) ∨
    (e = .killSignal ∧ s.phase = .stopRequested ∧ t = setPhase .terminated s) ∨
    (e = .runLoopReturn ∧ s.phase ≠ .terminated ∧ t = setPhase .terminated s) := by
  cases e <;> cases hp : s.phase <;> simp [takeEvent, hp] at h <;> simp [h]

theorem takeEvent_terminated {e : Event} {s : State} (h : s.phase = .terminated) :
    takeEvent e s = .fault (.eventNotEnabled e) := by
  cases e <;> simp [takeEvent, h]

theorem takeEvent_runLoopReturn {s : State} (h : s.phase ≠ .terminated) :
    takeEvent .runLoopReturn s = .next (setPhase .terminated s) := by
  cases hp : s.phase with
  | terminated => exact absurd hp h
  | running | stopRequested => simp [takeEvent, hp]

theorem atBoundary_of_not_terminated {s : State} (h : s.phase ≠ .terminated) :
    atBoundary s = if s.haltReq then takeEvent .runLoopReturn s else .next s := by
  cases hp : s.phase with
  | terminated => exact absurd hp h
  | running | stopRequested => simp [atBoundary, hp]

theorem takeInput_terminated {x : BusInput} {s : State} (hx : ∀ e, x ≠ .event e) (h : s.phase = .terminated) :
    takeInput x s = .fault .runOver := by
  cases x with
  | event e => exact absurd rfl (hx e)
  | word T | txn u => exact access_terminated h
  | boundary => simp [takeInput, atBoundary, h]

/-- Settles O13: the model's own lemma on a step in `Running`. -/
theorem stepPerformsTheDecodedOperation : Obligations.StepPerformsTheDecodedOperation :=
  fun _ _ _ _ => step_running

/-- Settles O14: the serviced access performs the operation after the stop check, which raises. -/
theorem stepInStopRequestedRaisesThenPerforms : Obligations.StepInStopRequestedRaisesThenPerforms := by
  intro s x rest i hb hd hp hs
  have hstop : stopChk { s with bus := rest } = raise .stopRequested { s with bus := rest } := stopChk_stopRequested hp
  rw [step_serviced hb hd (by simp [hp]) (returnsEarly_of_serviced hs), hstop]
  rfl

theorem respondUnserviced_write {i : Instr} (h : i.readWidth = none) (s : State) :
    respondUnserviced i s = respond .none s := by
  simp [respondUnserviced, h]

theorem respondUnserviced_w8 {i : Instr} (h : i.readWidth = some .w8) (s : State) :
    respondUnserviced i s = respond (.byte (drawnByte s)) (drawUsed s) := by
  simp [respondUnserviced, h]

theorem respondUnserviced_w16 {i : Instr} (h : i.readWidth = some .w16) (s : State) :
    respondUnserviced i s =
      respond (.word (drawnByte (drawUsed s) ++ drawnByte s)) (drawUsed (drawUsed s)) := by
  simp [respondUnserviced, h]

/-- Settles O15: the early return after the stop check, for a write and for a read of each width. -/
theorem unservicedAccessReturnsDraws : Obligations.UnservicedAccessReturnsDraws := by
  intro s x rest i hb hd hp hs
  have hstop : stopChk { s with bus := rest } = raise .stopRequested { s with bus := rest } := stopChk_stopRequested hp
  rw [step_unserviced hb hd hp hs, hstop]
  cases hw : i.readWidth with
  | none => exact ⟨.none, s.draws, by rw [respondUnserviced_write hw]; rfl, by simp, by simp, by simp⟩
  | some w =>
    cases w with
    | w8 => exact ⟨_, _, by rw [respondUnserviced_w8 hw]; rfl, by simp, fun _ => ⟨rfl, rfl⟩, by simp⟩
    | w16 => exact ⟨_, _, by rw [respondUnserviced_w16 hw]; rfl, by simp, by simp, fun _ => ⟨rfl, rfl⟩⟩

/-- Settles O16: each kind of input meets its fault in `Terminated`. -/
theorem noInputIsTakenAfterTermination : Obligations.NoInputIsTakenAfterTermination := by
  intro s x rest hb hp
  constructor
  · exact fun hno => (step_cons hb).trans (takeInput_terminated (s := { s with bus := rest }) hno hp)
  · rintro e rfl
    exact (step_event hb).trans (takeEvent_terminated (s := { s with bus := rest }) hp)

/-- Settles O17: what does not decode is refused under the decoder's own reason. -/
theorem meaninglessTransactionsAreRefused : Obligations.MeaninglessTransactionsAreRefused := by
  intro s rest hp
  constructor
  · exact fun T hb hres => step_refused hb (congrArg some (decodeWord_of_reserved hres)) hp
  · exact fun t hb h8 h16 => step_refused hb (congrArg some (decodeTxn_of_badWidth h8 h16)) hp

/-- Settles O18: the model's own lemma on a step without input. -/
theorem withoutInputNothingChanges : Obligations.WithoutInputNothingChanges := fun _ => step_nil

theorem decodeWord_of_decodeTableWord {nbits w : Nat} {i : Instr} (h : decodeTableWord nbits w = some i) :
    decodeWord Params.default (tableWord nbits w) = .ok i := by
  unfold decodeTableWord at h
  split at h
  next j hj => rw [hj, Option.some.inj h]
  next => cases h

/-- Settles O19: the placed word is the first input, and the state behind it is the one it was placed in. -/
theorem placedTableWordIsPerformed : Obligations.PlacedTableWordIsPerformed := by
  intro s nbits w i hp hparams hi
  have hd : decodeInput (s.withFetchWord nbits w).params (.word (tableWord nbits w)) = some (.ok i) := by
    rw [show (s.withFetchWord nbits w).params = Params.default from hparams]
    exact congrArg some (decodeWord_of_decodeTableWord hi)
  exact step_running (s := s.withFetchWord nbits w) rfl hd hp

theorem takeEvent_stopSignal {s : State} (h : s.phase = .running) :
    takeEvent .stopSignal s = .next (setPhase .stopRequested s) := by
  simp [takeEvent, h]

/-- Settles O20: the event sets the phase in `Running`, and an event that is taken is taken in its own phase. -/
theorem stopSignalOnlySetsThePhase : Obligations.StopSignalOnlySetsThePhase := by
  intro s rest hb
  rw [step_event hb]
  refine ⟨fun hp => ?_, fun hp t h => ?_⟩
  · rw [takeEvent_stopSignal (s := { s with bus := rest }) hp]
    rfl
  · obtain ⟨-, hrun, -⟩ | ⟨he, -⟩ | ⟨he, -⟩ := takeEvent_cases h
    · exact hp hrun
    · cases he
    · cases he

/-- Settles O22: the event sets the phase wherever the run is not over, and faults in `Terminated`. -/
theorem runLoopReturnEndsTheRun : Obligations.RunLoopReturnEndsTheRun := by
  intro s rest hb
  rw [step_event hb]
  refine ⟨fun hp => ?_, fun hp t h => ?_⟩
  · rw [takeEvent_runLoopReturn (s := { s with bus := rest }) hp]
    rfl
  · rw [takeEvent_terminated (s := { s with bus := rest }) hp] at h
    cases h

/-- Settles O23: a boundary delivers `RunLoopReturn` exactly when `halt_req` is set. -/
theorem boundaryHonoursTheHaltRequest : Obligations.BoundaryHonoursTheHaltRequest := by
  intro s rest hb hp
  have hstep : step s = if s.haltReq then takeEvent .runLoopReturn { s with bus := rest } else .next { s with bus := rest } :=
    (step_cons hb).trans (atBoundary_of_not_terminated (s := { s with bus := rest }) hp)
  rw [hstep]
  refine ⟨fun hreq => ?_, fun hreq => by simp [hreq]⟩
  rw [if_pos hreq, takeEvent_runLoopReturn (s := { s with bus := rest }) hp]
  rfl

/-- A transaction leaves the phase alone, returned early or performed. -/
theorem step_phase_of_inputOp {s t : State} {i : Instr} (h : step s = .next t) (hi : inputOp s = some i) :
    t.phase = s.phase := by
  obtain ⟨hnone, -⟩ | ⟨j, -, -, rfl⟩ | ⟨j, -, -, hexec⟩ := step_kinds h
  · simp [hi] at hnone
  · obtain ⟨r, d, e⟩ := respondUnserviced_frame j (stopChk (busTaken s))
    simp [e]
  · simp [(exec_performed hexec).phase]

/-- Settles O24: no transaction moves the phase, so an event or a boundary with `halt_req` set has. -/
theorem onlyEventsMoveThePhase : Obligations.OnlyEventsMoveThePhase := by
  intro s t h hne
  obtain ⟨-, rfl⟩ | ⟨e, rest, hb, he⟩ | ⟨rest, hb, he⟩ | ⟨x, rest, i, hb, hd, -⟩ | ⟨x, rest, i, hb, hd, -⟩ :=
    step_next_cases h
  · exact absurd rfl hne
  · obtain ⟨rfl, hp, rfl⟩ | ⟨rfl, hp, rfl⟩ | ⟨rfl, hp, rfl⟩ := takeEvent_cases he
    · exact ⟨_, rest, hb, .inl ⟨rfl, hp, rfl⟩⟩
    · exact ⟨_, rest, hb, .inr (.inl ⟨rfl, hp, rfl⟩)⟩
    · exact ⟨_, rest, hb, .inr (.inr (.inl ⟨rfl, hp, rfl⟩))⟩
  · obtain ⟨hp, ⟨hreq, rfl⟩ | ⟨-, rfl⟩⟩ := atBoundary_next he
    · exact ⟨_, rest, hb, .inr (.inr (.inr ⟨rfl, hreq, hp, rfl⟩))⟩
    · exact absurd rfl hne
  · exact absurd (step_phase_of_inputOp h ((inputOp_cons hb).trans (opOf_of_decodeInput hd))) hne
  · exact absurd (step_phase_of_inputOp h ((inputOp_cons hb).trans (opOf_of_decodeInput hd))) hne

/-- Settles O25: every arm of `exec` answers a next state. -/
theorem everyOperationCompletes : Obligations.EveryOperationCompletes := by
  intro i s
  cases i <;> exact ⟨_, rfl⟩

end Sys2Proof.Proofs

namespace Sys2Proof.Proofs

open Sys2Proof Sys2Proof.Machine

/-! What the host types reaches neither the output nor the log nor memory (20_memory.md R68): two runs that differ in the
receive side only. -/

/-- An input is only taken while the run is not over (40_dispatch.md R110). -/
theorem phase_ne_terminated_of_step {s t : State} {x : BusInput} {rest : List BusInput} (hb : s.bus = x :: rest)
    (h : step s = .next t) : s.phase ≠ .terminated := by
  intro hp
  obtain ⟨hother, hevent⟩ := noInputIsTakenAfterTermination s x rest hb hp
  by_cases hx : ∃ e, x = .event e
  · obtain ⟨e, he⟩ := hx
    simp [hevent e he] at h
  · simp [hother (fun e he => hx ⟨e, he⟩)] at h

/-- A step ends the run, or moves the phase as its input alone says. -/
theorem step_phase_cases {s t : State} (h : step s = .next t) :
    t.phase = .terminated ∨
      t.phase = if s.bus.head? = some (.event .stopSignal) then .stopRequested else s.phase := by
  by_cases hhead : s.bus.head? = some (.event .stopSignal)
  · obtain ⟨rest, hb⟩ := List.head?_eq_some_iff.mp hhead
    rw [step_event hb] at h
    obtain ⟨-, -, rfl⟩ | ⟨he, -⟩ | ⟨he, -⟩ := takeEvent_cases h
    · simp [hhead]
    · cases he
    · cases he
  · rw [if_neg hhead]
    by_cases hsame : t.phase = s.phase
    · exact .inr hsame
    · obtain ⟨x, rest, hb, ⟨rfl, -⟩ | ⟨-, -, ht⟩ | ⟨-, -, ht⟩ | ⟨-, -, -, ht⟩⟩ := onlyEventsMoveThePhase s t h hsame
      · simp [hb] at hhead
      · exact .inl ht
      · exact .inl ht
      · exact .inl ht

/-- `s` and `s'` agree on all that the host's input cannot reach; a host error may have ended one of the two runs at a
boundary. -/
structure AgreeButHost (s s' : State) : Prop where
  bus : s'.bus = s.bus
  params : s'.params = s.params
  out : s'.out = s.out
  log : s'.log = s.log
  mem : s'.mem = s.mem
  memCalls : s'.memCalls = s.memCalls
  phase : s.phase = .terminated ∨ s'.phase = .terminated ∨ s'.phase = s.phase

/-- The operation performed is a function of what the two states agree on. -/
theorem performedOp_congr {s s' : State} (hbus : s'.bus = s.bus) (hparams : s'.params = s.params)
    (hphase : s'.phase = s.phase) : performedOp s' = performedOp s := by
  simp [performedOp, returnsEarly, inputOp, hbus, hparams, hphase]

theorem step_agreeButHost {s s' t t' : State} (h : step s = .next t) (h' : step s' = .next t') (ha : AgreeButHost s s') :
    AgreeButHost t t' := by
  cases hb : s.bus with
  | nil =>
    rw [step_nil hb] at h
    rw [step_nil (ha.bus.trans hb)] at h'
    cases h
    cases h'
    exact ha
  | cons x rest =>
    have hphase : s'.phase = s.phase :=
      (ha.phase.resolve_left (phase_ne_terminated_of_step hb h)).resolve_left
        (phase_ne_terminated_of_step (ha.bus.trans hb) h')
    have hperf := performedOp_congr ha.bus ha.params hphase
    have hs := step_stepped h
    have hs' := step_stepped h'
    constructor
    case bus => rw [hs.bus, hs'.bus, ha.bus]
    case params => rw [hs.params, hs'.params, ha.params]
    case out => rw [hs.out, hs'.out, hperf, ha.out]
    case log => rw [hs.log, hs'.log, hperf, ha.params, ha.log]
    case mem => rw [hs.mem, hs'.mem, hperf, ha.params, ha.mem]
    case memCalls => rw [hs.memCalls, hs'.memCalls, hperf, ha.memCalls]
    case phase =>
      obtain ht | ht := step_phase_cases h
      · exact .inl ht
      · obtain ht' | ht' := step_phase_cases h'
        · exact .inr (.inl ht')
        · exact .inr (.inr (by rw [ht, ht', ha.bus, hphase]))

theorem run_agreeButHost {k : Nat} {s s' t t' : State} (ha : AgreeButHost s s')
    (h : Host.Core.run Sys2Proof.core k s = .next t) (h' : Host.Core.run Sys2Proof.core k s' = .next t') :
    AgreeButHost t t' := by
  induction k generalizing s s' with
  | zero =>
    cases h
    cases h'
    exact ha
  | succ k ih =>
    obtain ⟨u, hstep, hrun⟩ := run_succ_next h
    obtain ⟨u', hstep', hrun'⟩ := run_succ_next h'
    exact ih (step_agreeButHost hstep hstep' ha) hrun hrun'

/-- Settles O54: states that differ in the receive side agree on the rest, and steps keep that. -/
theorem hostInputNeverReachesTheOutput : Obligations.HostInputNeverReachesTheOutput := by
  intro k s t t' c q n h h'
  have ha := run_agreeButHost (s := s) (s' := { s with rxCell := c, hostIn := q, pulls := n })
    ⟨rfl, rfl, rfl, rfl, rfl, rfl, .inr (.inr rfl)⟩ h h'
  exact ⟨ha.out, ha.log, ha.mem, ha.memCalls⟩

/-! The causes of one transaction (60_exceptions.md R180 to R184, R191). -/

/-- The causes of a UART read: a host error's, exactly when an empty cell meets one. -/
theorem rxCauses_cases (s : State) :
    ((s.rxCell = .empty ∧ nextAnswer s = .error) ∧ (rxAnswers s).flatMap answerCauses = [.hostInputError]) ∨
      (¬(s.rxCell = .empty ∧ nextAnswer s = .error) ∧ (rxAnswers s).flatMap answerCauses = []) := by
  cases hc : s.rxCell with
  | holding b => simp [rxAnswers, hc]
  | empty => cases ha : nextAnswer s <;> simp [rxAnswers, hc, ha, answerCauses]

/-- An operation has at most one cause of its own, and which one it is says what happened. -/
theorem ownCauses_cases (i : Instr) (s : State) :
    (ownCauses i s = [.unhandledRead] ∧ ∃ a w, i = .ioRdUnhandled a w) ∨
    (ownCauses i s = [.unhandledWrite] ∧ ∃ a w v, i = .ioWrUnhandled a w v) ∨
    (ownCauses i s = [.hostInputError] ∧ i.isUartRead = true ∧ s.rxCell = .empty ∧ nextAnswer s = .error) ∨
    (ownCauses i s = [] ∧ (∀ a w, i ≠ .ioRdUnhandled a w) ∧ (∀ a w v, i ≠ .ioWrUnhandled a w v) ∧
      ¬(i.isUartRead = true ∧ s.rxCell = .empty ∧ nextAnswer s = .error)) := by
  cases i with
  | ioRdUnhandled a w => exact .inl ⟨rfl, a, w, rfl⟩
  | ioWrUnhandled a w v => exact .inr (.inl ⟨rfl, a, w, v, rfl⟩)
  | uartRdData w | uartRdStatus w =>
    obtain ⟨⟨hc, ha⟩, e⟩ | ⟨hno, e⟩ := rxCauses_cases s
    · exact .inr (.inr (.inl ⟨e, rfl, hc, ha⟩))
    · exact .inr (.inr (.inr ⟨e, by simp, by simp, fun h => hno h.2⟩))
  | swRd w | uartWrData w v | uartWrCtrl w v | uartWrBaud w v | picWrMCmd w v | picWrMData w v | picWrSCmd w v
  | picWrSData w v | ctcWrData w v | ctcWrCtrl w v | memRd a w | memWr a w v =>
    exact .inr (.inr (.inr ⟨rfl, by simp, by simp, by simp [Instr.isUartRead]⟩))

theorem stopRequested_not_mem_ownCauses (i : Instr) (s : State) : Cause.stopRequested ∉ ownCauses i s := by
  obtain ⟨e, -⟩ | ⟨e, -⟩ | ⟨e, -⟩ | ⟨e, -⟩ := ownCauses_cases i s <;> simp [e]

/-- The causes a serviced transaction appends. -/
theorem stepCauses_of_serviced {s : State} {i : Instr} (hi : inputOp s = some i)
    (hs : s.params.stopAccessServiced = true) : stepCauses s = stopCauses s ++ ownCauses i s := by
  simp [stepCauses, performedOp_of_serviced hs, hi]

/-- Settles O45: the operation's own causes come after the stop check's. -/
theorem causesOfOneTransaction : Obligations.CausesOfOneTransaction := by
  intro s t x rest i hb hx hserviced h
  refine ⟨ownCauses i s, ?_, ?_⟩
  · rw [(step_stepped h).haltCauses, stepCauses_of_serviced ((inputOp_cons hb).trans hx) hserviced, List.append_assoc]
    rfl
  · obtain ⟨e, a, w, rfl⟩ | ⟨e, a, w, v, rfl⟩ | ⟨e, hread, hcell, hans⟩ | ⟨e, hr, hw, hno⟩ := ownCauses_cases i s
    · simp [e, Instr.isUartRead]
    · simp [e, Instr.isUartRead]
    · have hr : ∀ a w, i ≠ .ioRdUnhandled a w := by
        rintro a w rfl
        cases hread
      have hw : ∀ a w v, i ≠ .ioWrUnhandled a w v := by
        rintro a w v rfl
        cases hread
      simp [e, hr, hw, hread, hcell, hans]
    · simp [e, hr, hw, hno]

theorem forall_eq_stopRequested_iff (cs : List Cause) :
    (∀ c ∈ cs, c = .stopRequested) ↔
      .unhandledRead ∉ cs ∧ .unhandledWrite ∉ cs ∧ .hostInputError ∉ cs := by
  constructor
  · exact fun h => ⟨fun hc => (nomatch h _ hc), fun hc => (nomatch h _ hc), fun hc => (nomatch h _ hc)⟩
  · rintro ⟨hr, hw, hh⟩ c hc
    cases c with
    | stopRequested => rfl
    | unhandledRead => exact absurd hc hr
    | unhandledWrite => exact absurd hc hw
    | hostInputError => exact absurd hc hh

/-- Settles O46: the stop check's cause is not fatal, so a fatal cause is the transaction's own. -/
theorem fatalExactlyOutsideTheMapOrOnHostError : Obligations.FatalExactlyOutsideTheMapOrOnHostError := by
  intro s t x rest i hb hx hserviced h
  obtain ⟨own, hcauses, -, -, hread, hwrite, hhost⟩ := causesOfOneTransaction s t x rest i hb hx hserviced h
  have hown : (∀ c ∈ own, c = .stopRequested) ↔ (∀ a w, i ≠ .ioRdUnhandled a w) ∧ (∀ a w v, i ≠ .ioWrUnhandled a w v) ∧
      ¬(i.isUartRead = true ∧ s.rxCell = .empty ∧ nextAnswer s = .error) := by
    simp only [forall_eq_stopRequested_iff, hread, hwrite, hhost, not_exists, ne_eq]
  have hstop : ∀ c ∈ (if s.phase = .stopRequested then [Cause.stopRequested] else []), c = .stopRequested := by
    split <;> simp
  rw [← hown, NothingFatal, NothingFatal, hcauses, List.forall_mem_append, List.forall_mem_append]
  exact ⟨fun ⟨⟨hs, _⟩, ho⟩ => ⟨hs, ho⟩, fun ⟨hs, ho⟩ => ⟨⟨hs, hstop⟩, ho⟩⟩

/-! The invariant (Safety.lean). -/

theorem wf_memAfter (k : MemoryKind) (i : Instr) {m : Memory} (h : m.wf = true) : (memAfter k i m).wf = true := by
  cases i with
  | memWr a w v =>
    have hlo := Memory.wf_write (writtenByte v) h (memAddr_lt_top (forwardAddr a))
    cases k with
    | external => cases w <;> exact h
    | flat =>
      cases w with
      | w8 => exact hlo
      | w16 => exact Memory.wf_write _ hlo (memAddr_lt_top (forwardAddr a + 1))
  | _ => exact h

/-- An operation logs an unhandled access exactly when it raises its cause. -/
theorem loggedBy_causes (p : Params) (i : Instr) (s : State) :
    (loggedBy p i).filterMap LogEvent.cause = (ownCauses i s).filter Cause.isUnhandled := by
  cases i with
  | uartRdData w | uartRdStatus w =>
    obtain ⟨-, e⟩ | ⟨-, e⟩ := rxCauses_cases s <;> simp [loggedBy, ownCauses, e, Cause.isUnhandled]
  | _ => rfl

theorem stopCauses_not_unhandled (s : State) : (stopCauses s).filter Cause.isUnhandled = [] := by
  unfold stopCauses
  split <;> rfl

theorem ne_running_of_rank_le {p q : Phase} (hle : p.rank ≤ q.rank) (hp : p ≠ .running) : q ≠ .running := by
  rintro rfl
  cases p <;> simp_all [Phase.rank]

/-- The stop check's cause is among those of a step only in `StopRequested`. -/
theorem phase_of_stopRequested_mem_stepCauses {s : State} (h : Cause.stopRequested ∈ stepCauses s) :
    s.phase = .stopRequested := by
  by_contra hp
  have hnone : stopCauses s = [] := if_neg hp
  cases hi : inputOp s <;> cases hperf : performedOp s <;>
    simp [stepCauses, hi, hperf, hnone, stopRequested_not_mem_ownCauses] at h

theorem step_causes_logged (s : State) :
    ((performedOp s).elim [] (loggedBy s.params)).filterMap LogEvent.cause = (stepCauses s).filter Cause.isUnhandled := by
  cases hi : inputOp s <;> cases hperf : performedOp s <;>
    simp [stepCauses, hi, hperf, stopCauses_not_unhandled, loggedBy_causes _ _ s]

/-- Settles O55: each clause from what a step does to the components it speaks of. -/
theorem everyStepKeepsTheInvariant : Obligations.EveryStepKeepsTheInvariant := by
  intro s t hinv h
  have hs := step_stepped h
  constructor
  case ports => rw [hs.params, hinv.ports]
  case memory =>
    rw [hs.mem]
    cases performedOp s with
    | none => exact hinv.memory
    | some i => exact wf_memAfter _ i hinv.memory
  case noLineFeed =>
    by_cases hsame : t.rxCell = s.rxCell
    · rw [hsame]
      exact hinv.noLineFeed
    · obtain ⟨x, rest, i, -, -, ⟨hc, -⟩ | ⟨-, b, w, hc, hb, -⟩⟩ := onlyUartReadsChangeTheCell s t h hsame
      · simp [hc]
      · simp [hc, hb]
  case haltHasCause =>
    rw [hs.haltReq, hs.haltCauses, Bool.or_eq_true, hinv.haltHasCause, ne_eq, ne_eq, List.append_eq_nil_iff, not_and_or]
    simp
  case stopAfterSignal =>
    rw [hs.haltCauses, List.mem_append]
    rintro (hold | hnew)
    · exact ne_running_of_rank_le hs.phase (hinv.stopAfterSignal hold)
    · exact ne_running_of_rank_le hs.phase (by simp [phase_of_stopRequested_mem_stepCauses hnew])
  case unhandledLogged =>
    rw [hs.log, hs.haltCauses, List.filterMap_append, List.filter_append, hinv.unhandledLogged, step_causes_logged]

end Sys2Proof.Proofs

namespace Sys2Proof.Proofs

open Sys2Proof Sys2Proof.Machine

/-! A write to a sink is visible in the log and the last response only (10_state.md R30): no operation reads these two, nor
the inputs that are still to come. -/

/-- `s` with another log, another last response and other inputs to come. -/
def relabel (l : List LogEvent) (r : Response) (b : List BusInput) (s : State) : State :=
  { s with log := l, result := r, bus := b }

section
variable (l : List LogEvent) (r : Response) (b : List BusInput) (s : State)

theorem tryRx_relabel : tryRx (relabel l r b s) = relabel l r b (tryRx s) := by
  obtain ⟨c, hc, h⟩ | ⟨c, hc, ha, h⟩ | ⟨hc, ha, h⟩ | ⟨hc, ha, h⟩ := tryRx_cases s <;> rw [h]
  · exact tryRx_holding (s := relabel l r b s) hc
  · exact tryRx_byte (s := relabel l r b s) hc ha
  · exact tryRx_wouldBlock (s := relabel l r b s) hc ha
  · exact tryRx_error (s := relabel l r b s) hc ha

theorem externalAnswered_relabel (w : Width) (a : MemAddr) :
    externalAnswered w a (relabel l r b s) = relabel l r b (externalAnswered w a s) := by
  have himg : imageByte w a (relabel l r b s) = imageByte w a s := rfl
  have hq : (relabel l r b s).memIn = s.memIn := rfl
  rw [externalAnswered, externalAnswered, himg, hq]
  cases imageByte w a s <;> cases s.memIn <;> cases w <;> rfl

theorem respondMemory_relabel (w : Width) (a : MemAddr) :
    ∃ r', respondMemory w a (relabel l r b s) = relabel l r' b (respondMemory w a s) := by
  cases hm : s.params.memory with
  | flat =>
    rw [respondMemory_flat w a hm, respondMemory_flat (s := relabel l r b s) w a hm]
    cases w with
    | w8 => rw [respondFlat_w8, respondFlat_w8]; exact ⟨_, rfl⟩
    | w16 => rw [respondFlat_w16, respondFlat_w16]; exact ⟨_, rfl⟩
  | external =>
    rw [respondMemory_external w a hm, respondMemory_external (s := relabel l r b s) w a hm, respondExternal,
      respondExternal, externalAnswered_relabel]
    exact ⟨_, rfl⟩

theorem storeMemory_relabel (w : Width) (a : MemAddr) (v : Half) :
    storeMemory w a v (relabel l r b s) = relabel l r b (storeMemory w a v s) := by
  cases hm : s.params.memory with
  | flat =>
    rw [storeMemory_flat w a v hm, storeMemory_flat (s := relabel l r b s) w a v hm]
    cases w <;> rfl
  | external =>
    rw [storeMemory_external w a v hm, storeMemory_external (s := relabel l r b s) w a v hm]
    rfl

/-- An operation does the same to the other components, whatever the log, the last response and the inputs to come are. -/
theorem exec_relabel {i : Instr} {s t : State} (h : exec i s = .next t) :
    ∃ l' r', exec i (relabel l r b s) = .next (relabel l' r' b t) := by
  cases i with
  | uartRdData w =>
    cases h
    rw [exec_uartRdData, tryRx_relabel, respondRegister_eq, respondRegister_eq]
    exact ⟨_, _, rfl⟩
  | uartRdStatus w =>
    cases h
    rw [exec, execUartRdStatus, tryRx_relabel, respondRegister_eq, respondRegister_eq]
    exact ⟨_, _, rfl⟩
  | swRd w | ioRdUnhandled a w =>
    cases w <;> cases h <;> exact ⟨_, _, rfl⟩
  | memRd a w =>
    cases h
    obtain ⟨r', e⟩ := respondMemory_relabel l r b s w (forwardAddr a)
    exact ⟨_, _, congrArg Host.Outcome.next e⟩
  | memWr a w v =>
    cases h
    rw [exec, execMemWr, storeMemory_relabel]
    exact ⟨_, _, rfl⟩
  | uartWrData w v | uartWrCtrl w v | uartWrBaud w v | picWrMCmd w v | picWrMData w v | picWrSCmd w v
  | picWrSData w v | ctcWrData w v | ctcWrCtrl w v | ioWrUnhandled a w v =>
    cases h
    exact ⟨_, _, rfl⟩

end

/-- A write to a sink relabels (10_state.md R30). -/
theorem exec_sink {i : Instr} {s t : State} (hi : i.isSink = true) (h : exec i s = .next t) :
    t = relabel t.log t.result s.bus s := by
  cases i with
  | uartWrCtrl w v | uartWrBaud w v | picWrMCmd w v | picWrMData w v | picWrSCmd w v | picWrSData w v | ctcWrData w v
  | ctcWrCtrl w v =>
    cases h
    rfl
  | _ => cases hi

/-- Outside `StopRequested` an access that is answered performs its operation. -/
theorem access_next {d : Except Reject Instr} {s t : State} (hp : s.phase ≠ .stopRequested) (h : access d s = .next t) :
    s.phase = .running ∧ ∃ i, d = .ok i ∧ exec i s = .next t := by
  obtain ⟨-, e⟩ | ⟨-, r, -, e⟩ | ⟨hstop, -⟩ | ⟨hnot, -, i, hd, e⟩ := access_cases d s
  · simp [e] at h
  · simp [e] at h
  · exact absurd hstop hp
  · have hrun : s.phase = .running := by cases hphase : s.phase <;> simp_all
    rw [e, stopChk_running hrun] at h
    exact ⟨hrun, i, hd, h⟩

theorem access_running {i : Instr} {s : State} (h : s.phase = .running) : access (.ok i) s = exec i s := by
  rw [access_serviced (by simp [h]) (by simp [returnsEarly, h]), stopChk_running h]

theorem access_relabel {d : Except Reject Instr} {s t : State} (l : List LogEvent) (r : Response) (b : List BusInput)
    (hp : s.phase ≠ .stopRequested) (h : access d s = .next t) :
    ∃ l' r', access d (relabel l r b s) = .next (relabel l' r' b t) := by
  obtain ⟨hrun, i, rfl, hexec⟩ := access_next hp h
  rw [access_running (s := relabel l r b s) hrun]
  exact exec_relabel l r b hexec

/-- Outside `StopRequested` a transaction or a boundary does the same to the other components, whatever the log, the last
response and the inputs to come are. -/
theorem takeInput_relabel {x : BusInput} {s t : State} (l : List LogEvent) (r : Response) (b : List BusInput)
    (hx : ∀ e, x ≠ .event e) (hp : s.phase ≠ .stopRequested) (h : takeInput x s = .next t) :
    ∃ l' r', takeInput x (relabel l r b s) = .next (relabel l' r' b t) := by
  cases x with
  | event e => exact absurd rfl (hx e)
  | word T => exact access_relabel l r b hp h
  | txn u => exact access_relabel l r b hp h
  | boundary =>
    obtain ⟨hnot, ⟨hreq, rfl⟩ | ⟨hreq, rfl⟩⟩ := atBoundary_next h
    · refine ⟨l, r, (atBoundary_of_not_terminated (s := relabel l r b s) hnot).trans ?_⟩
      rw [if_pos (show (relabel l r b s).haltReq = true from hreq), takeEvent_runLoopReturn (s := relabel l r b s) hnot]
      rfl
    · refine ⟨l, r, (atBoundary_of_not_terminated (s := relabel l r b t) hnot).trans ?_⟩
      rw [if_neg (show ¬(relabel l r b t).haltReq = true by simp [relabel, hreq])]

theorem exists_sink_of_asksSink {p : Params} {x : BusInput} (h : asksSink p x = true) :
    ∃ i, decodeInput p x = some (.ok i) ∧ i.isSink = true := by
  cases hd : decodeInput p x with
  | none => simp [asksSink, opOf, hd] at h
  | some d =>
    cases d with
    | error e => simp [asksSink, opOf, hd] at h
    | ok i => exact ⟨i, rfl, by simpa [asksSink, opOf, hd] using h⟩

/-- A step that takes a write to a sink, outside `StopRequested`, relabels. -/
theorem step_sink {s u : State} {x : BusInput} {rest : List BusInput} (hb : s.bus = x :: rest)
    (hp : s.phase ≠ .stopRequested) (hx : asksSink s.params x = true) (h : step s = .next u) :
    ∃ l r, u = relabel l r rest s := by
  obtain ⟨i, hd, hi⟩ := exists_sink_of_asksSink hx
  rw [step_access hb hd] at h
  obtain ⟨-, j, hj, hexec⟩ := access_next (s := { s with bus := rest }) hp h
  cases hj
  exact ⟨_, _, exec_sink hi hexec⟩

/-- The phase `StopRequested` is entered by an event only. -/
theorem step_phase_ne_stopRequested {s u : State} {x : BusInput} {rest : List BusInput} (hb : s.bus = x :: rest)
    (hx : ∀ e, x ≠ .event e) (hp : s.phase ≠ .stopRequested) (h : step s = .next u) : u.phase ≠ .stopRequested := by
  obtain hu | hu := step_phase_cases h
  · simp [hu]
  · have hhead : s.bus.head? ≠ some (.event .stopSignal) := by simp [hb, hx]
    rwa [hu, if_neg hhead]

/-- The inputs that are not writes to a sink. -/
def withoutSinks (p : Params) (xs : List BusInput) : List BusInput := xs.filter fun x => !asksSink p x

/-- Outside `StopRequested` and without events, the run that leaves the writes to sinks out follows the whole run, relabelled. -/
theorem run_withoutSinks {xs : List BusInput} {s t : State} (l : List LogEvent) (r : Response) (hb : s.bus = xs)
    (hp : s.phase ≠ .stopRequested) (hx : ∀ x ∈ xs, ∀ e, x ≠ .event e)
    (h : Host.Core.run Sys2Proof.core xs.length s = .next t) :
    ∃ l' r', Host.Core.run Sys2Proof.core (withoutSinks s.params xs).length (relabel l r (withoutSinks s.params xs) s) =
      .next (relabel l' r' t.bus t) := by
  induction xs generalizing s l r with
  | nil =>
    cases h
    rw [hb]
    exact ⟨l, r, rfl⟩
  | cons x rest ih =>
    obtain ⟨u, hstep, hrun⟩ := run_succ_next h
    obtain ⟨hx, hrest⟩ := List.forall_mem_cons.mp hx
    have hu := step_stepped hstep
    have hubus : u.bus = rest := by rw [hu.bus, hb]; rfl
    have hup := step_phase_ne_stopRequested hb hx hp hstep
    cases hsink : asksSink s.params x with
    | true =>
      have hout : withoutSinks s.params (x :: rest) = withoutSinks s.params rest := by simp [withoutSinks, hsink]
      obtain ⟨l₁, r₁, rfl⟩ := step_sink hb hp hsink hstep
      rw [hout]
      exact ih (s := relabel l₁ r₁ rest s) l r hubus hup hrest hrun
    | false =>
      have hin : withoutSinks s.params (x :: rest) = x :: withoutSinks s.params rest := by simp [withoutSinks, hsink]
      rw [step_cons hb] at hstep
      obtain ⟨l₁, r₁, htaken⟩ := takeInput_relabel l r (withoutSinks s.params rest) (s := { s with bus := rest }) hx hp hstep
      have hstep' : step (relabel l r (x :: withoutSinks s.params rest) s) =
          .next (relabel l₁ r₁ (withoutSinks s.params rest) u) :=
        (step_cons (s := relabel l r (x :: withoutSinks s.params rest) s) rfl).trans htaken
      rw [hin, List.length_cons, run_of_step hstep', ← hu.params]
      exact ih l₁ r₁ hubus hup hrest hrun

/-- Settles O42: without events a run that starts in `Running` never meets `StopRequested`, so the run without the sink writes
ends in the relabelled state. -/
theorem sinkWritesAreInvisible : Obligations.SinkWritesAreInvisible := by
  intro s t hp hx h
  obtain ⟨l, r, hrun⟩ := run_withoutSinks s.log s.result rfl (by simp [hp]) hx h
  exact ⟨_, hrun, rfl⟩

end Sys2Proof.Proofs

namespace Sys2Proof.Proofs

open Sys2Proof Sys2Proof.Machine

/-! The UART status read, and what a status read and the data reads after it say to each other (41_uart.md R132, R133;
70_reset_and_hazards.md R215). -/

/-- The status byte is its three fields side by side (10_state.md R27). -/
theorem statusByte_eq (s : State) : statusByte s = s.params.statusUpper ++ rxRdy s ++ 1#1 := by
  have hbits : ∀ (u : BitVec 6) (r : BitVec 1),
      (u.setWidth 8 <<< 2) ||| (r.setWidth 8 <<< 1) ||| (1 : BitVec 1).setWidth 8 = u ++ r ++ 1#1 := by decide
  exact hbits _ _

theorem rxRdy_holding {b : Byte} {s : State} (h : s.rxCell = .holding b) : rxRdy s = 1#1 := by
  simp [rxRdy, h]

theorem rxRdy_empty {s : State} (h : s.rxCell = .empty) : rxRdy s = 0#1 := by
  simp [rxRdy, h]

theorem rxRdy_eq_one_iff (s : State) : rxRdy s = 1#1 ↔ s.rxCell ≠ .empty := by
  cases hc : s.rxCell with
  | empty => simp [rxRdy_empty hc]
  | holding b => simp [rxRdy_holding hc]

theorem exec_uartRdStatus (w : Width) (s : State) :
    exec (.uartRdStatus w) s = .next
      { tryRx s with
        result := regAnswer w ((tryRx s).params.statusUpper ++ rxRdy (tryRx s) ++ 1#1) (tryRx s).draws
        draws := (tryRx s).draws + regDraws w } := by
  rw [exec, execUartRdStatus, respondRegister_eq, statusByte_eq]

/-- Settles O27: the four cases of `TRYRX`, of which the first two leave a byte in the cell. -/
theorem statusReadReportsTheCellAfterThePull : Obligations.StatusReadReportsTheCellAfterThePull := by
  intro w s
  refine ⟨fun b hcell => ?_, fun b hempty hans => ?_, fun hempty hans => ?_, fun hempty hans => ?_⟩ <;>
    rw [exec_uartRdStatus]
  · rw [tryRx_holding hcell, rxRdy_holding hcell]
  · rw [tryRx_byte hempty hans, rxRdy_holding rfl]
    rfl
  · rw [tryRx_wouldBlock hempty hans, rxRdy_empty (s := pullUsed s) hempty]
    rfl
  · rw [tryRx_error hempty hans, rxRdy_empty (s := raise .hostInputError (pullUsed s)) hempty]
    rfl

/-- What a status read shows, and of which cell. -/
theorem exec_uartRdStatus_lowByte {w : Width} {s t : State} (h : exec (.uartRdStatus w) s = .next t) :
    t.result.lowByte = some (s.params.statusUpper ++ rxRdy t ++ 1#1) := by
  obtain ⟨-, -, -, -, hparams, -⟩ := tryRx_frame s
  rw [exec_uartRdStatus, hparams] at h
  cases h
  exact lowByte_regAnswer _ _ _

theorem status_bit_zero (u : BitVec 6) (r : BitVec 1) : (u ++ r ++ 1#1).getLsbD 0 = true := by
  revert u r
  decide

theorem status_bit_one (u : BitVec 6) (r : BitVec 1) : (u ++ r ++ 1#1).getLsbD 1 = true ↔ r = 1#1 := by
  revert u r
  decide

/-- Settles O28: the bits of the byte shown are those of its fields, and with the upper field 0 two values are left. -/
theorem statusBitsMeanWhatTheySay : Obligations.StatusBitsMeanWhatTheySay := by
  intro s t w r h hr
  obtain rfl := Option.some.inj (hr.symm.trans (exec_uartRdStatus_lowByte h))
  refine ⟨status_bit_zero _ _, (status_bit_one _ _).trans (rxRdy_eq_one_iff t), fun hupper => ?_⟩
  rw [hupper]
  generalize rxRdy t = ready
  revert ready
  decide

/-- Settles O31: the first read empties the cell without asking the host, so the second asks it and finds nothing. -/
theorem secondDataReadFindsNothing : Obligations.SecondDataReadFindsNothing := by
  intro s t u b w w' hcell hans ht hu
  obtain ⟨hheld, -⟩ := dataReadGivesTheByteAndEmptiesTheCell w s
  rw [hheld b hcell] at ht
  cases ht
  obtain ⟨-, -, hnothing, -⟩ := dataReadGivesTheByteAndEmptiesTheCell w'
    { s with rxCell := .empty, result := regAnswer w b s.draws, draws := s.draws + regDraws w }
  rw [hnothing rfl hans] at hu
  cases hu
  exact ⟨lowByte_regAnswer _ _ _, lowByte_regAnswer _ _ _, rfl⟩

/-- Settles O32: the bit is set only with a byte in the cell, which the data read then finds. -/
theorem pollThenReadDelivers : Obligations.PollThenReadDelivers := by
  intro s t w w' r h hr hready
  obtain ⟨-, hbit, -⟩ := statusBitsMeanWhatTheySay s t w r h hr
  cases hcell : t.rxCell with
  | empty => exact absurd hcell (hbit.mp hready)
  | holding b =>
    obtain ⟨hheld, -⟩ := dataReadGivesTheByteAndEmptiesTheCell w' t
    exact ⟨b, rfl, hheld b hcell⟩

/-- What a data read shows is the byte it hands over, or `FILL` when it hands over none (41_uart.md R132). -/
theorem exec_uartRdData_lowByte {w : Width} {s t : State} (h : exec (.uartRdData w) s = .next t) :
    t.result.lowByte = some ((handedBy (.uartRdData w) s).headD Config.fill) := by
  rw [handedBy_uartRdData, ← tryRx_cellBytes]
  rw [exec_uartRdData, respondRegister_eq] at h
  cases h
  rw [lowByte_regAnswer]
  cases hc : (tryRx s).rxCell with
  | empty => rw [dataByte_empty hc]; rfl
  | holding b => rw [dataByte_holding hc]; rfl

theorem length_handedBy_uartRdData_le (w : Width) (s : State) : (handedBy (.uartRdData w) s).length ≤ 1 := by
  rw [handedBy_uartRdData, ← tryRx_cellBytes]
  cases (tryRx s).rxCell <;> simp [cellBytes]

/-- A serviced step performs the operation its input asks for, after the stop check. -/
theorem exec_of_step_serviced {s t : State} {i : Instr} (hi : inputOp s = some i)
    (hs : s.params.stopAccessServiced = true) (h : step s = .next t) : exec i (stopChk (busTaken s)) = .next t := by
  obtain ⟨hnone, -⟩ | ⟨j, -, hearly, -⟩ | ⟨j, hj, -, hexec⟩ := step_kinds h
  · simp [hi] at hnone
  · simp [returnsEarly_of_serviced hs] at hearly
  · rwa [Option.some.inj (hi.symm.trans hj)]

/-- Settles O33: the step performs the data read, which shows what it hands over. -/
theorem handedByteIsTheResult : Obligations.HandedByteIsTheResult := by
  intro s t x rest w hb hx hserviced h
  have hi : inputOp s = some (.uartRdData w) := (inputOp_cons hb).trans hx
  have hhanded : handedNext s = handedBy (.uartRdData w) s := by rw [handedNext_eq, hi]; rfl
  have hlow := exec_uartRdData_lowByte (exec_of_step_serviced hi hserviced h)
  rw [handedBy_stopChk_busTaken, ← hhanded] at hlow
  refine ⟨fun b hone => ?_, fun hnone => ?_, ?_⟩
  · rw [hlow, hone]; rfl
  · rw [hlow, hnone]; rfl
  · rw [hhanded]
    exact length_handedBy_uartRdData_le w s

/-- Only a data write puts anything out. -/
theorem emittedBy_cases (i : Instr) :
    emittedBy i = [] ∨
      ∃ w v, i = .uartWrData w v ∧
        emittedBy i = [if v.extractLsb' 0 8 = 0x8A then Config.hostNl else v.extractLsb' 0 8] := by
  cases i with
  | uartWrData w v => exact .inr ⟨w, v, rfl, rfl⟩
  | _ => exact .inl rfl

/-- Settles O38: a step appends what the operation it performs puts out. -/
theorem onlyDataWritesAppendToOut : Obligations.OnlyDataWritesAppendToOut := by
  intro s t h
  have hout := (step_stepped h).out
  cases hp : performedOp s with
  | none => exact .inl (by simpa [hp] using hout)
  | some i =>
    obtain ⟨x, rest, hb, hx⟩ := exists_bus_of_inputOp (inputOp_of_performedOp hp)
    obtain hnone | ⟨w, v, rfl, hone⟩ := emittedBy_cases i
    · exact .inl (by simpa [hp, hnone] using hout)
    · exact .inr ⟨x, rest, w, v, hb, hx, by rw [hout, hp, Option.elim_some, hone]⟩

/-- Settles O39: the four operations are sink writes, each under its own name and port. -/
theorem picWritesOnlyLog : Obligations.PicWritesOnlyLog := by
  intro w v s
  exact ⟨congrArg Host.Outcome.next (sinkWrite_eq .picMCmd _ w v s),
    congrArg Host.Outcome.next (sinkWrite_eq .picMData _ w v s),
    congrArg Host.Outcome.next (sinkWrite_eq .picSCmd _ w v s),
    congrArg Host.Outcome.next (sinkWrite_eq .picSData _ w v s)⟩

end Sys2Proof.Proofs

namespace Sys2Proof.Proofs

open Sys2Proof Sys2Proof.Machine

/-! The memory fallback (40_dispatch.md R116, R117; 20_memory.md R53, R60). -/

/-- A memory read of the flat memory, in the address arithmetic of 20_memory.md R60. -/
theorem exec_memRd_w8_flat {s : State} (a : BusAddr) (h : s.params.memory = .flat) :
    exec (.memRd a .w8) s = .next
      { s with
        memCalls := s.memCalls ++ [.read (a.extractLsb' 0 20) .w8]
        result := .byte (byteOrDraw s.mem (a.toNat % 0x100000) s.draws)
        draws := s.draws + drawIfUnwritten s.mem (a.toNat % 0x100000) } := by
  rw [exec_memRd, respondMemory_flat _ _ h, respondFlat_w8, forwardAddr_toNat, forwardAddr_eq]
  rfl

theorem exec_memRd_w16_flat {s : State} (a : BusAddr) (h : s.params.memory = .flat) :
    exec (.memRd a .w16) s = .next
      { s with
        memCalls := s.memCalls ++ [.read (a.extractLsb' 0 20) .w16]
        result := .word
          (byteOrDraw s.mem ((a.toNat + 1) % 0x100000) (s.draws + drawIfUnwritten s.mem (a.toNat % 0x100000)) ++
            byteOrDraw s.mem (a.toNat % 0x100000) s.draws)
        draws := s.draws + drawIfUnwritten s.mem (a.toNat % 0x100000) +
          drawIfUnwritten s.mem ((a.toNat + 1) % 0x100000) } := by
  rw [exec_memRd, respondMemory_flat _ _ h, respondFlat_w16, forwardAddr_succ_toNat, forwardAddr_toNat, forwardAddr_eq]
  rfl

section
variable {s : State} {w : Width} {a : BusAddr}

theorem exec_memRd_image {b : Byte} (h : s.params.memory = .external) (hcalls : s.memCalls = [])
    (hb : s.mem.read (a.toNat % 0x100000) = some b) :
    exec (.memRd a .w8) s = .next
      { s with memCalls := s.memCalls ++ [.read (a.extractLsb' 0 20) .w8], result := .byte b } := by
  have himg : imageByte .w8 (forwardAddr a) s = some b := by rw [imageByte_powerOn hcalls, forwardAddr_toNat]; exact hb
  rw [exec_memRd, respondMemory_image h himg, memoryResponse, extractLsb'_setWidth_byte, forwardAddr_eq]

theorem exec_memRd_queued {v : Half} {rest : List Half} (h : s.params.memory = .external)
    (himg : imageByte w (forwardAddr a) s = none) (hq : s.memIn = v :: rest) :
    exec (.memRd a w) s = .next
      { s with
        memCalls := s.memCalls ++ [.read (a.extractLsb' 0 20) w], memIn := rest, result := memoryResponse w v } := by
  rw [exec_memRd, respondMemory_queued h himg hq, forwardAddr_eq]

theorem exec_memRd_drawn (h : s.params.memory = .external) (himg : imageByte w (forwardAddr a) s = none)
    (hq : s.memIn = []) :
    exec (.memRd a w) s = .next
      (callMem (.read (a.extractLsb' 0 20) w) (respond (memoryResponse w (drawnAnswer w s)) (drawsUsed w s))) := by
  rw [exec_memRd, respondMemory_drawn h himg hq, forwardAddr_eq]

theorem imageByte_w8_eq_none (h : s.memCalls ≠ [] ∨ s.mem.read (a.toNat % 0x100000) = none) :
    imageByte .w8 (forwardAddr a) s = none :=
  imageByte_eq_none (.inr (by rw [forwardAddr_toNat]; exact h))

end

/-- Settles O47: the flat memory's two widths, and an external memory's image byte, queued answer and drawn answer. -/
theorem memoryReadIsForwarded : Obligations.MemoryReadIsForwarded := by
  intro a s
  refine ⟨fun hflat => ⟨exec_memRd_w8_flat a hflat, exec_memRd_w16_flat a hflat⟩, fun hext => ⟨?_, ?_, ?_, ?_⟩⟩
  · exact fun b hcalls hb => exec_memRd_image hext hcalls hb
  · intro hno
    refine ⟨fun v rest hq => exec_memRd_queued hext (imageByte_w8_eq_none hno) hq, fun hq => ?_⟩
    rw [exec_memRd_drawn hext (imageByte_w8_eq_none hno) hq, memoryResponse, drawnAnswer, extractLsb'_setWidth_byte]
    rfl
  · exact fun v rest hq => exec_memRd_queued hext rfl hq
  · intro hq
    rw [exec_memRd_drawn hext rfl hq]
    rfl

theorem exec_memWr (a : BusAddr) (w : Width) (v : Half) (s : State) :
    exec (.memWr a w v) s = .next (respond .none (storeMemory w (forwardAddr a) v s)) := rfl

/-- The flat memory after a store: the low byte at the address, the high byte of a word one up, the rest as before. -/
theorem read_storedIn_flat (w : Width) (a : MemAddr) (v : Half) (m : Memory) :
    (storedIn .flat w a v m).read a.toNat = some (v.extractLsb' 0 8) ∧
      (w = .w16 → (storedIn .flat w a v m).read (a + 1).toNat = some (v.extractLsb' 8 8)) ∧
      ∀ x, x ≠ a.toNat → (w = .w16 → x ≠ (a + 1).toNat) → (storedIn .flat w a v m).read x = m.read x := by
  cases w with
  | w8 => exact ⟨Memory.read_write_same _ _ _, by simp, fun x hx _ => Memory.read_write_other hx⟩
  | w16 =>
    refine ⟨?_, fun _ => Memory.read_write_same _ _ _, fun x hlo hhi => ?_⟩
    · exact (Memory.read_write_other (memAddr_succ_ne a).symm).trans (Memory.read_write_same _ _ _)
    · exact (Memory.read_write_other (hhi rfl)).trans (Memory.read_write_other hlo)

/-- The value handed on, as the statements write it. -/
theorem operandValue_eq (w : Width) (v : Half) :
    operandValue w v = if w = .w8 then (v.extractLsb' 0 8).setWidth 16 else v := by
  cases w <;> rfl

/-- Settles O48: a store changes memory and the calls only, and what the flat memory then reads is known. -/
theorem memoryWriteStoresItsBytes : Obligations.MemoryWriteStoresItsBytes := by
  intro a w v s
  refine ⟨_, exec_memWr a w v s, ?_, fun hflat => ?_, fun hext => ?_⟩
  · rw [storeMemory_eq, forwardAddr_eq, operandValue_eq]
    rfl
  · have hread := read_storedIn_flat w (forwardAddr a) v s.mem
    rw [forwardAddr_succ_toNat, forwardAddr_toNat] at hread
    rw [respond_mem, storeMemory_mem, hflat]
    exact hread
  · rw [respond_mem, storeMemory_external _ _ _ hext, callMem_mem]

theorem byteOrDraw_of_read {m : Memory} {a : Nat} {b : Byte} (h : m.read a = some b) (d : Nat) : byteOrDraw m a d = b := by
  simp [byteOrDraw, h]

theorem half_high_append_low (v : Half) : v.extractLsb' 8 8 ++ v.extractLsb' 0 8 = v := by
  rw [BitVec.extractLsb'_append_extractLsb'_eq_extractLsb' (rfl : 8 = 0 + 8)]
  exact BitVec.extractLsb'_eq_self

/-- After a store into the flat memory: the parameters as before, and the bytes stored. -/
theorem exec_memWr_flat {a : BusAddr} {w : Width} {v : Half} {s t : State} (hflat : s.params.memory = .flat)
    (h : exec (.memWr a w v) s = .next t) :
    t.params.memory = .flat ∧ t.mem.read (a.toNat % 0x100000) = some (v.extractLsb' 0 8) ∧
      (w = .w16 → t.mem.read ((a.toNat + 1) % 0x100000) = some (v.extractLsb' 8 8)) := by
  obtain ⟨t', ht', -, hstored, -⟩ := memoryWriteStoresItsBytes a w v s
  rw [ht'] at h
  cases h
  obtain ⟨hlo, hhi, -⟩ := hstored hflat
  exact ⟨by rw [(exec_performed ht').params, hflat], hlo, hhi⟩

/-- Settles O49: the load reads the bytes that the store lists. -/
theorem storeThenLoadReadsBack : Obligations.StoreThenLoadReadsBack := by
  intro a v s t u hflat
  constructor
  · intro ht hu
    obtain ⟨hkeep, hlo, -⟩ := exec_memWr_flat hflat ht
    rw [exec_memRd_w8_flat a hkeep, byteOrDraw_of_read hlo] at hu
    cases hu
    rfl
  · intro ht hu
    obtain ⟨hkeep, hlo, hhi⟩ := exec_memWr_flat hflat ht
    rw [exec_memRd_w16_flat a hkeep, byteOrDraw_of_read hlo, byteOrDraw_of_read (hhi rfl), half_high_append_low] at hu
    cases hu
    rfl

/-- Settles O50: both operations use the forwarded address only. -/
theorem memoryAddressesWrap : Obligations.MemoryAddressesWrap := by
  intro a a' w v s h
  have hsame : forwardAddr a = forwardAddr a' := by
    apply BitVec.eq_of_toNat_eq
    rw [forwardAddr_toNat, forwardAddr_toNat]
    exact h
  rw [exec_memRd, exec_memRd, exec_memWr, exec_memWr, hsame]
  exact ⟨rfl, rfl⟩

/-! The responses, and the frame of every operation (10_state.md R21 to R25, R30; 30_encoding.md R82). -/

theorem regAnswer_eq (w : Width) (r : Byte) (d : Nat) : ∃ v, regAnswer w r d = memoryResponse w v := by
  cases w with
  | w8 => exact ⟨r.setWidth 16, by rw [memoryResponse, extractLsb'_setWidth_byte]; rfl⟩
  | w16 => exact ⟨_, rfl⟩

theorem respondMemory_result (w : Width) (a : MemAddr) (s : State) :
    ∃ v, (respondMemory w a s).result = memoryResponse w v := by
  cases hm : s.params.memory with
  | flat =>
    rw [respondMemory_flat _ _ hm, callMem_result]
    cases w with
    | w8 =>
      rw [respondFlat_w8]
      exact ⟨(byteOrDraw s.mem a.toNat s.draws).setWidth 16, by rw [memoryResponse, extractLsb'_setWidth_byte]⟩
    | w16 => rw [respondFlat_w16]; exact ⟨_, rfl⟩
  | external =>
    rw [respondMemory_external _ _ hm]
    exact ⟨_, rfl⟩

/-- A read answers a response of its own width. -/
theorem exec_read_result {i : Instr} {w : Width} {s t : State} (hi : i.readWidth = some w) (h : exec i s = .next t) :
    ∃ v, t.result = memoryResponse w v := by
  cases i with
  | uartRdData w' | uartRdStatus w' | swRd w' | ioRdUnhandled a w' =>
    cases hi
    cases h
    rw [respondRegister_eq]
    exact regAnswer_eq _ _ _
  | memRd a w' =>
    cases hi
    cases h
    exact respondMemory_result _ _ _
  | _ => cases hi

/-- A write answers nothing and draws nothing. -/
theorem exec_write_result {i : Instr} {s t : State} (hi : i.readWidth = none) (h : exec i s = .next t) :
    t.result = .none ∧ t.draws = s.draws := by
  cases i with
  | uartRdData w | uartRdStatus w | swRd w | ioRdUnhandled a w | memRd a w => cases hi
  | memWr a w v =>
    cases h
    rw [storeMemory_eq]
    exact ⟨rfl, rfl⟩
  | _ =>
    cases h
    exact ⟨rfl, rfl⟩

/-- Settles O52: a response of a width is a byte or a word. -/
theorem responseHasTheWidthOfTheAccess : Obligations.ResponseHasTheWidthOfTheAccess := by
  intro i s t h
  refine ⟨fun hw => ?_, fun hw => ?_, fun hw => (exec_write_result hw h).1⟩
  · obtain ⟨v, hv⟩ := exec_read_result hw h
    exact ⟨_, hv⟩
  · obtain ⟨v, hv⟩ := exec_read_result hw h
    exact ⟨_, hv⟩

@[simp] theorem respondRegister_memIn (w : Width) (r : Byte) (s : State) : (respondRegister w r s).memIn = s.memIn := by
  rw [respondRegister_eq]

/-- Only a memory read takes an external memory's answers. -/
theorem exec_memIn {i : Instr} {s t : State} (hi : ∀ a w, i ≠ .memRd a w) (h : exec i s = .next t) :
    t.memIn = s.memIn := by
  cases i with
  | memRd a w => exact absurd rfl (hi a w)
  | uartRdData w | uartRdStatus w =>
    obtain ⟨-, -, -, -, -, -, -, -, -, hmemIn⟩ := tryRx_frame s
    cases h
    rw [respondRegister_memIn]
    exact hmemIn
  | swRd w | ioRdUnhandled a w =>
    cases h
    exact respondRegister_memIn _ _ _
  | memWr a w v =>
    cases h
    rw [storeMemory_eq]
    rfl
  | _ =>
    cases h
    rfl

theorem emittedBy_eq_nil {i : Instr} (h : ∀ w v, i ≠ .uartWrData w v) : emittedBy i = [] := by
  obtain hnone | ⟨w, v, rfl, -⟩ := emittedBy_cases i
  · exact hnone
  · exact absurd rfl (h w v)

theorem loggedBy_eq_nil {i : Instr} (p : Params) (hsink : i.isSink = false) (hread : ∀ a w, i ≠ .ioRdUnhandled a w)
    (hwrite : ∀ a w v, i ≠ .ioWrUnhandled a w v) : loggedBy p i = [] := by
  cases i with
  | ioRdUnhandled a w => exact absurd rfl (hread a w)
  | ioWrUnhandled a w v => exact absurd rfl (hwrite a w v)
  | uartRdData w | uartRdStatus w | swRd w | uartWrData w v | memRd a w | memWr a w v => rfl
  | _ => cases hsink

theorem ownCauses_eq_nil {i : Instr} (s : State) (hrx : i.isUartRead = false) (hread : ∀ a w, i ≠ .ioRdUnhandled a w)
    (hwrite : ∀ a w v, i ≠ .ioWrUnhandled a w v) : ownCauses i s = [] := by
  obtain ⟨-, a, w, e⟩ | ⟨-, a, w, v, e⟩ | ⟨-, e, -⟩ | ⟨hnone, -⟩ := ownCauses_cases i s
  · exact absurd e (hread a w)
  · exact absurd e (hwrite a w v)
  · simp [hrx] at e
  · exact hnone

theorem memAfter_eq_self {i : Instr} (k : MemoryKind) (m : Memory) (h : ∀ a w v, i ≠ .memWr a w v) :
    memAfter k i m = m := by
  cases i with
  | memWr a w v => exact absurd rfl (h a w v)
  | _ => rfl

theorem callsBy_eq_nil {i : Instr} (hread : ∀ a w, i ≠ .memRd a w) (hwrite : ∀ a w v, i ≠ .memWr a w v) :
    callsBy i = [] := by
  cases i with
  | memRd a w => exact absurd rfl (hread a w)
  | memWr a w v => exact absurd rfl (hwrite a w v)
  | _ => rfl

/-- Settles O51: each component is what the operation makes of it, which is nothing outside the named operations. -/
theorem onlyTheNamedOperationsWrite : Obligations.OnlyTheNamedOperationsWrite := by
  intro i s t h
  have hd := exec_performed h
  refine ⟨hd.phase, hd.params, hd.bus, fun hrx => ?rx, fun hi => ?out, fun hsink hr hw => ?log, fun hrx hr hw => ?halt,
    fun hi x => ?mem, fun hi => exec_memIn hi h, fun hr hw => ?calls, fun hi => exec_write_result hi h⟩
  case rx =>
    have hnone : answersPulled i s = [] := by simp [answersPulled, hrx]
    exact ⟨exec_rxCell_of_not_isUartRead hrx h, by rw [hd.hostIn, hnone]; rfl, by rw [hd.pulls, hnone]; rfl⟩
  case out => rw [hd.out, emittedBy_eq_nil hi, List.append_nil]
  case log => rw [hd.log, loggedBy_eq_nil _ hsink hr hw, List.append_nil]
  case halt =>
    have hnone := ownCauses_eq_nil s hrx hr hw
    exact ⟨by rw [hd.haltReq, hnone]; simp, by rw [hd.haltCauses, hnone, List.append_nil]⟩
  case mem => rw [hd.mem, memAfter_eq_self _ _ hi]
  case calls => rw [hd.memCalls, callsBy_eq_nil hr hw, List.append_nil]

/-! Reset and power-on (10_state.md R33 to R35; 70_reset_and_hazards.md R210 to R213). -/

/-- A state with nothing done yet meets the invariant when its parameters are legal and its memory is in canonical form. -/
theorem inv_reset_with {p : Params} {m : Memory} (hp : p.wf = true) (hm : m.wf = true) :
    Inv { State.reset with params := p, mem := m } where
  ports := hp
  memory := hm
  noLineFeed := by simp [State.reset]
  haltHasCause := by simp [State.reset]
  stopAfterSignal := by simp [State.reset]
  unhandledLogged := rfl

/-- Settles O56: the default map is legal and no memory is listed. -/
theorem theInvariantHoldsAtReset : Obligations.TheInvariantHoldsAtReset :=
  inv_reset_with (p := Params.default) (m := []) (by decide) rfl

/-- Settles O59: the image lies below the top of memory, in rising order. -/
theorem powerOnMeetsTheInvariant : Obligations.PowerOnMeetsTheInvariant := by
  intro p img s hp h
  by_cases hlen : img.length = 2048 ∨ img.length = 4096
  · rw [powerOn_of_length p hlen] at h
    cases h
    exact inv_reset_with hp (wf_cellsFrom (by rw [Config.topOfSpace]; omega))
  · obtain ⟨h2, h4⟩ := not_or.mp hlen
    simp [powerOn_eq_none p h2 h4] at h

/-- Settles O57: the reset state holds these values. -/
theorem powerOnStateOfTheBlock : Obligations.PowerOnStateOfTheBlock :=
  ⟨rfl, rfl, rfl, rfl, rfl, rfl⟩

/-- Settles O60: the entry point is computed from its two numbers, and compared for each size. -/
theorem entryPointLiesInTheImage : Obligations.EntryPointLiesInTheImage := by
  have hentry : entryPoint = 0xFFFF0 := by decide
  refine ⟨hentry, fun size => ?_⟩
  rw [hentry]
  cases size <;> decide

end Sys2Proof.Proofs
